-- ==== Sys2Proof/Word.lean ====
section
/-! DEFINITION. Word.lean: the one data type of the machine (00_scope.md R7, R8; 20_memory.md R40, R51). -/

namespace Sys2Proof

/-- `WORD`: a memory cell, an operand, a result, a value that crosses a port. It is the signed 64-bit
integer `i64` (R7), held as its 64-bit two's-complement pattern; its value in `Z` is `BitVec.toInt`.
A cell is one indivisible integer, never eight bytes (R51; log entry 1). -/
abbrev Word := BitVec 64

end Sys2Proof
end

