-- ==== Sys2Proof/Machine/Flags.lean ====
section
/-! DEFINITION. Machine/Flags.lean: the hardware "has no status flags, condition codes or predicate registers"
(10_state.md R24). In their place stand here the values the instructions compute and the tests the jumps make. -/

namespace Sys2Proof.Machine

/-- `wrap64(z)`: the `i64` congruent to `z` modulo `2^64` (00_scope.md R8). -/
def wrap64 (z : Int) : Word := BitVec.ofInt 64 z

/-- ADD: the exact sum, wrapped (40_arithmetic.md R100, R102). -/
def addValue (a b : Word) : Word := wrap64 (a.toInt + b.toInt)

/-- MUL: the exact product, wrapped (R101, R102). -/
def mulValue (a b : Word) : Word := wrap64 (a.toInt * b.toInt)

/-- LT: 1 if `a < b` as signed integers, else 0 (41_compare.md R110, R112). -/
def ltValue (a b : Word) : Word := if a.toInt < b.toInt then 1 else 0

/-- EQ: 1 if the two values are equal, else 0 (R111, R112). -/
def eqValue (a b : Word) : Word := if a.toInt = b.toInt then 1 else 0

/-- The test of JNZ: "true" is any non-zero word (42_control.md R121). -/
def nonZero (a : Word) : Bool := decide (a.toInt ≠ 0)

/-- The test of JZ (R122). -/
def isZero (a : Word) : Bool := decide (a.toInt = 0)

end Sys2Proof.Machine
end

