-- ==== Sys2Proof/Config.lean ====
section
/-! DEFINITION. Config.lean: what one implementation fixes (00_scope.md R7), and the one free value, the scheduler. -/

namespace Sys2Proof

/-- `ADDR_MAX`, the largest legal address, instruction-pointer value and relative-base value
(R7, decision D1 of 92_eei_decisions.md). -/
abbrev Config.addrMax : Nat := 2 ^ 63 - 1

/-- FREE VALUE. Which VM the scheduler names for the coming network step, as a function of how many
network steps have been taken. "At every point, any enabled VM may take the next step" (60_exceptions.md
R203): the spec fixes no order, so this constant has no body (log entry 4). -/
opaque Config.schedule : Nat → Nat

end Sys2Proof
end

