-- ==== Sys2Proof/Machine/State.lean ====
section
/-! DEFINITION. Machine/State.lean: all the state the spec gives the machine (10_state.md R20 to R37), and its reset value. -/

namespace Sys2Proof.Machine

/-- Sub-reasons of `InputStarvation` (60_exceptions.md R173). -/
inductive Starvation where
  /-- `take_input` on an empty queue port (43_io.md R135). -/
  | queueEmpty
  /-- A VM blocked on a channel port when its network is quiescent (R142, R205). -/
  | timedOut
  /-- Reserved for implementations that close channels; no rule raises it (R146). -/
  | channelClosed
deriving DecidableEq, Repr

/-- The five faults of a VM with the detail each records (60_exceptions.md R170, R172). -/
inductive VmFault where
  | decodeError
  | unknownOpcode
  /-- The address `ip + k` of the offending parameter. -/
  | invalidWriteTarget (param : Nat)
  | inputStarvation (why : Starvation)
  /-- The offending integer. -/
  | addressRangeFault (a : Int)
deriving DecidableEq, Repr

/-- The fault record (R172): the fault with its detail, the address of the faulting instruction, and its
instruction word as it was fetched. -/
structure FaultRecord where
  fault : VmFault
  ip : Nat
  word : Word
deriving DecidableEq, Repr

/-- `st`, the run state of one VM (10_state.md R23). Blocked is no fourth value (R32, 90_conflicts.md C3). -/
inductive RunState where
  | running
  | halted
  | faulted (record : FaultRecord)
deriving DecidableEq, Repr

/-- `mem`, the Memory of one VM (R26): the dense `tape`, whose length is `L`, and the sparse extension `ext`,
held as address and word pairs in the canonical form of `Memory.wf` (log entry 2). -/
structure Memory where
  tape : List Word
  ext : List (Nat × Word)
deriving DecidableEq, Repr

/-- The state of a queue port (R29). -/
structure QueuePort where
  inFifo : List Word
  lastOut : Option Word
  history : List Word
deriving DecidableEq, Repr

/-- The state of a channel port (R30); `downstream` is the index of the one VM it feeds, if any. -/
structure ChannelPort where
  inbox : List Word
  lastOut : Option Word
  history : List Word
  downstream : Option Nat
deriving DecidableEq, Repr

/-- An I/O port is a tagged union of the two kinds (43_io.md R132). -/
inductive Port where
  | queue (q : QueuePort)
  | channel (c : ChannelPort)
deriving DecidableEq, Repr

/-- One VM: its registers `ip`, `rb` and `st` (R21, R22, R23), its Memory (R26) and its port (R28). Addresses are
natural numbers because every sum of them is formed in `Z` and never wraps (20_memory.md R47, 42_control.md R120);
their bound `ADDR_MAX` is part of the invariant. -/
structure Vm where
  ip : Nat
  rb : Nat
  st : RunState
  mem : Memory
  port : Port
deriving DecidableEq, Repr

/-- The machine: the VMs of an Amplifier Network in pipeline order and its configuration bit (R31). A stand-alone
VM is a list of one VM with a queue port. `cur` and `turn` are the MODEL'S OWN fields (log entry 4): `cur` is the
scheduler's choice, the VM it names for the coming step (and, during a step, the VM that steps); `turn` counts the
network steps and draws the next choice from `Config.schedule`. -/
structure State where
  vms : List Vm
  feedback : Bool
  cur : Nat
  turn : Nat
deriving DecidableEq, Repr

/-- Why the machine has no next state. A fault of a VM is none of these: it is a next state in which that VM is
`Faulted` (60_exceptions.md R171, R178). -/
inductive Fault where
  /-- Raised by `step` when every VM is `Halted` or `Faulted`: "terminal states are for ever" (R187), no transition
  exists (R206, 93_implementation_defined.md V12). Safe: the spec has no step here either. -/
  | runOver
  /-- Raised by IN on an empty inbox while some VM is enabled: the VM is blocked and "has no step" (42_control.md
  R126, 43_io.md R141). `step` never runs into it, since it does not choose a blocked VM then. Safe. -/
  | blocked
  /-- Raised when the VM that is to step is not `Running` (R126: "require st = Running"). `step` never chooses
  such a VM. Safe. -/
  | notRunning
  /-- Raised when a VM index names no VM: only in states outside the invariant, or for a `cur` set by hand. Safe. -/
  | noSuchVm
  /-- Raised by the fetch when `ip` is above `ADDR_MAX`, which no rule stores (10_state.md R21): only in states
  outside the invariant. Safe. -/
  | ipOutOfRange
deriving DecidableEq, Repr

/-- Instructions without a meaning. -/
inductive Refusal where
  /-- Raised by an arm of `exec` that has no meaning yet; there is none in this model. Safe. -/
  | notModelled (mnemonic : String)
deriving DecidableEq, Repr

/-- What a step answers. -/
abbrev Result := Host.Outcome State Fault Refusal

/-- A Memory created from the empty Program (70_reset_and_hazards.md R232, R233). -/
def Memory.empty : Memory := { tape := [], ext := [] }

/-- A queue port as created (10_state.md R29, R35). -/
def QueuePort.empty : QueuePort := { inFifo := [], lastOut := none, history := [] }

/-- The registers of a run around a Memory and a port (70_reset_and_hazards.md R231). -/
def Vm.start (mem : Memory) (port : Port) : Vm :=
  { ip := 0, rb := 0, st := .running, mem := mem, port := port }

/-- The machine right after reset (R35, R230): a stand-alone VM around a Memory nothing has been loaded into and an
empty queue port. Which machine stands for "after reset" is log entry 5; how a program comes into it is log entry 6;
`cur` and `turn` are the model's own and their 0 is a DESIGN CHOICE (log entry 4). -/
def State.reset : State :=
  { vms := [Vm.start Memory.empty (.queue QueuePort.empty)], feedback := false, cur := 0, turn := 0 }

end Sys2Proof.Machine
end

