-- ==== Sys2Proof/Machine/Ops.lean ====
section
/-! DEFINITION. Machine/Ops.lean: named operations over memory, the instruction pointer and the VM list; raising a fault.
There is no operation that returns from a fault: "there is no return-from-trap instruction and nothing to return to"
(60_exceptions.md R179). -/

namespace Sys2Proof.Machine

/-! ## Memory (20_memory.md R41, R44, R45) -/

/-- The value `ext` holds at `a`, 0 where it holds none (R41). -/
def extRead : List (Nat × Word) → Nat → Word
  | [], _ => 0
  | (b, x) :: rest, a => if a = b then x else extRead rest a

/-- Store `v` at `a` in a rising extension list. A stored 0 is what an absent address reads as, so it removes the
entry: which addresses are keys of `ext` is not observable (10_state.md R32; log entry 2). -/
def extWrite : List (Nat × Word) → Nat → Word → List (Nat × Word)
  | [], a, v => if v = 0 then [] else [(a, v)]
  | (b, x) :: rest, a, v =>
    if a < b then (if v = 0 then (b, x) :: rest else (a, v) :: (b, x) :: rest)
    else if a = b then (if v = 0 then rest else (a, v) :: rest)
    else (b, x) :: extWrite rest a v

/-- The architectural content `M(a)` (R41). -/
def Memory.read (m : Memory) (a : Nat) : Word :=
  if a < m.tape.length then m.tape.getD a 0 else extRead m.ext a

/-- The store of R45 at a valid address: into the tape below `L`, else into the extension; `L` never changes. -/
def Memory.write (m : Memory) (a : Nat) (v : Word) : Memory :=
  if a < m.tape.length then { m with tape := m.tape.set a v } else { m with ext := extWrite m.ext a v }

/-- Addresses strictly rising from `lo` on, none above `ADDR_MAX`, no stored 0. -/
def extWf (lo : Nat) : List (Nat × Word) → Bool
  | [] => true
  | (a, v) :: rest => decide (lo ≤ a) && decide (a ≤ Config.addrMax) && decide (v ≠ 0) && extWf (a + 1) rest

/-- The canonical form of a Memory: every key of `ext` is at least `L` and at most `ADDR_MAX` (10_state.md R27 (b)),
the keys rise, and no entry holds what an unlisted address reads as. -/
def Memory.wf (m : Memory) : Bool := extWf m.tape.length m.ext

/-! ## Addresses and the two memory primitives (R43, R44, R45) -/

/-- Address validity (R43): every address, new `ip` and new `rb` passes this test before it is used. (The upper bound
is compared in `Nat`, which the kernel evaluates without counting down from `ADDR_MAX`.) -/
def checkAddr (a : Int) : Except VmFault Nat :=
  if 0 ≤ a ∧ a.toNat ≤ Config.addrMax then .ok a.toNat else .error (.addressRangeFault a)

/-- `MemRead(a, 1)` (R44). It changes no state. -/
def memRead (m : Memory) (a : Int) : Except VmFault Word :=
  match checkAddr a with
  | .ok n => .ok (m.read n)
  | .error f => .error f

/-! ## One VM -/

/-- The instruction word of the current instruction, `M(ip)` (R50). -/
def Vm.instrWord (v : Vm) : Word := v.mem.read v.ip

/-- `raise F(info)` (60_exceptions.md R171): `st` becomes `Faulted` with the record of R172 and nothing else changes;
`ip` is not advanced (42_control.md R125). `w` is the instruction word as it was fetched. -/
def Vm.raise (v : Vm) (w : Word) (f : VmFault) : Vm :=
  { v with st := .faulted { fault := f, ip := v.ip, word := w } }

/-- Go on with the value of an action, or raise its fault; what the instruction did before stays done (R171). -/
def Vm.orRaise {α : Type} (v : Vm) (w : Word) (r : Except VmFault α) (k : α → Vm) : Vm :=
  match r with
  | .ok x => k x
  | .error f => v.raise w f

/-- `set_ip(t)`, the last action of an instruction and the only way `ip` is written (42_control.md R120). -/
def Vm.setIp (v : Vm) (w : Word) (t : Int) : Vm :=
  v.orRaise w (checkAddr t) fun a => { v with ip := a }

/-- Sequential advance by the width `W` of the instruction (R120). -/
def Vm.advance (v : Vm) (w : Word) (width : Nat) : Vm := v.setIp w ((v.ip : Int) + width)

/-- Whether a VM is `Running`, "the only state in which the VM executes instructions" (10_state.md R23). -/
def RunState.isRunning : RunState → Bool
  | .running => true
  | .halted => false
  | .faulted _ => false

/-! ## The VM list -/

/-- Make VM `k` the one that steps. -/
def State.select (s : State) (k : Nat) : State := { s with cur := k }

/-- Replace the stepping VM. -/
def State.setVm (s : State) (v : Vm) : State := { s with vms := s.vms.set s.cur v }

/-- Change the stepping VM. -/
def State.modifyVm (s : State) (f : Vm → Vm) : State := { s with vms := s.vms.modify s.cur f }

/-- Run a body on the stepping VM, which must exist and be `Running` (42_control.md R126). -/
def onRunning (s : State) (body : Vm → Result) : Result :=
  match s.vms[s.cur]? with
  | none => .fault .noSuchVm
  | some v => if v.st.isRunning then body v else .fault .notRunning

/-- Replace the stepping VM by what an instruction that touches nothing else makes of it. -/
def onVm (s : State) (f : Vm → Vm) : Result :=
  onRunning s fun v => .next (s.setVm (f v))

/-! ## Placing an instruction where it is fetched -/

/-- Store four words, as many as the longest instruction has, from `ip` on; words above `ADDR_MAX` have no cell. -/
def Memory.place (m : Memory) (ip : Nat) (word : Nat → Word) : Memory :=
  [0, 1, 2, 3].foldl (fun m k => if ip + k ≤ Config.addrMax then m.write (ip + k) (word k) else m) m

end Sys2Proof.Machine
end

