-- ==== Sys2Proof/Syntax.lean ====
section
/-! DEFINITION. Syntax.lean: the instruction set, one constructor per row of spec/opcode_table.json (30_encoding.md R80). -/

namespace Sys2Proof

/-- The three addressing modes (20_memory.md R46). -/
inductive Mode where
  | position
  | immediate
  | relative
deriving DecidableEq, Repr

/-- A decoded instruction: an opcode and the modes of the parameters it has. The parameter words are
no part of it: they are memory words that the instruction itself fetches (30_encoding.md R79), and the
mode digits of parameters an opcode does not have are validated and then ignored (R76). -/
inductive Instr where
  /-- ADD `a, b, dst` (opcode 1, format F3, R100). -/
  | add (a b dst : Mode)
  /-- MUL `a, b, dst` (opcode 2, format F3, R101). -/
  | mul (a b dst : Mode)
  /-- IN `dst` (opcode 3, format F1W, R130). -/
  | inp (dst : Mode)
  /-- OUT `a` (opcode 4, format F1R, R131). -/
  | out (a : Mode)
  /-- JNZ `a, target` (opcode 5, format F2, R121). -/
  | jnz (a target : Mode)
  /-- JZ `a, target` (opcode 6, format F2, R122). -/
  | jz (a target : Mode)
  /-- LT `a, b, dst` (opcode 7, format F3, R110). -/
  | lt (a b dst : Mode)
  /-- EQ `a, b, dst` (opcode 8, format F3, R111). -/
  | eq (a b dst : Mode)
  /-- ARB `a` (opcode 9, format F1R, R160). -/
  | arb (a : Mode)
  /-- HLT (opcode 99, format F0, R124). -/
  | hlt
deriving DecidableEq, Repr

end Sys2Proof
end

