-- ==== Sys2Proof/Machine/Operands.lean ====
section
/-! DEFINITION. Machine/Operands.lean: the addressing modes (20_memory.md R46 to R49), reading and writing a parameter. -/

namespace Sys2Proof.Machine

/-- The parameter word `p_k = MemRead(ip + k, 1)` (R47). -/
def param (v : Vm) (k : Nat) : Except VmFault Word := memRead v.mem ((v.ip : Int) + k)

/-- `rd(k)`: the value of parameter `k` (R48). The sum of a Relative address is formed in `Z` (R47). -/
def rd (v : Vm) (k : Nat) (m : Mode) : Except VmFault Word :=
  match param v k with
  | .error f => .error f
  | .ok p =>
    match m with
    | .immediate => .ok p
    | .position => memRead v.mem p.toInt
    | .relative => memRead v.mem (p.toInt + v.rb)

/-- The address `wr(k, _)` stores to (R49): the mode test comes first and needs no memory access, then the
parameter word is read, then the effective address is checked. -/
def destAddr (v : Vm) (k : Nat) (m : Mode) : Except VmFault Nat :=
  match m with
  | .immediate => .error (.invalidWriteTarget (v.ip + k))
  | .position =>
    match param v k with
    | .error f => .error f
    | .ok p => checkAddr p.toInt
  | .relative =>
    match param v k with
    | .error f => .error f
    | .ok p => checkAddr (p.toInt + v.rb)

/-- `wr(k, x)`: the Memory after storing `x` to the location parameter `k` names (R49). -/
def wr (v : Vm) (k : Nat) (m : Mode) (x : Word) : Except VmFault Memory :=
  match destAddr v k m with
  | .ok a => .ok (v.mem.write a x)
  | .error f => .error f

/-- The shape of ADD, MUL, LT and EQ (R100, R101, R110, R111; order of actions R176): read parameter 1, read
parameter 2, compute, write parameter 3, advance by 4. -/
def binary (f : Word → Word → Word) (a b dst : Mode) (v : Vm) : Vm :=
  v.orRaise v.instrWord (rd v 1 a) fun x =>
    v.orRaise v.instrWord (rd v 2 b) fun y =>
      v.orRaise v.instrWord (wr v 3 dst (f x y)) fun mem =>
        Vm.advance { v with mem := mem } v.instrWord 4

/-- The shape of JNZ and JZ (R121, R122): both parameters are read before the test; the target's value is
range-checked only when the jump is taken. -/
def jumpIf (test : Word → Bool) (a target : Mode) (v : Vm) : Vm :=
  v.orRaise v.instrWord (rd v 1 a) fun x =>
    v.orRaise v.instrWord (rd v 2 target) fun t =>
      if test x then v.setIp v.instrWord t.toInt else v.advance v.instrWord 3

end Sys2Proof.Machine
end

