-- ==== Sys2Proof/Machine/Arith.lean ====
section
/-! DEFINITION. Machine/Arith.lean: ADD and MUL (40_arithmetic.md). -/

namespace Sys2Proof.Machine

/-- ADD (R100). -/
def execAdd (a b dst : Mode) (s : State) : Result := onVm s (binary addValue a b dst)

/-- MUL (R101). -/
def execMul (a b dst : Mode) (s : State) : Result := onVm s (binary mulValue a b dst)

end Sys2Proof.Machine
end

