-- ==== Sys2Proof/Machine/Compare.lean ====
section
/-! DEFINITION. Machine/Compare.lean: LT and EQ (41_compare.md). -/

namespace Sys2Proof.Machine

/-- LT (R110). -/
def execLt (a b dst : Mode) (s : State) : Result := onVm s (binary ltValue a b dst)

/-- EQ (R111). -/
def execEq (a b dst : Mode) (s : State) : Result := onVm s (binary eqValue a b dst)

end Sys2Proof.Machine
end

