-- ==== Sys2Proof/Machine/Control.lean ====
section
/-! DEFINITION. Machine/Control.lean: JNZ, JZ and HLT (42_control.md). -/

namespace Sys2Proof.Machine

/-- JNZ (R121). -/
def execJnz (a target : Mode) (s : State) : Result := onVm s (jumpIf nonZero a target)

/-- JZ (R122). -/
def execJz (a target : Mode) (s : State) : Result := onVm s (jumpIf isZero a target)

/-- HLT (R124): `ip`, `rb`, memory and the port are unchanged. -/
def execHlt (s : State) : Result := onVm s fun v => { v with st := .halted }

end Sys2Proof.Machine
end

