-- ==== Sys2Proof/Decode.lean ====
section
/-! DEFINITION. Decode.lean: the decoder (30_encoding.md R70 to R86), the encoder of canonical words (R90), and the
instruction widths (R70). -/

namespace Sys2Proof

/-- The three results of `decode` (R74). -/
inductive Decoded where
  /-- Word out of `0 .. 99999`, or a mode digit of 3 or more (R73, R85). -/
  | decodeError
  /-- Modes valid, opcode field not one of the ten (R84). -/
  | unknownOpcode
  /-- An instruction. -/
  | decoded (i : Instr)
deriving DecidableEq, Repr

/-- `dig_k`: the decimal digit of weight `10^k` (00_scope.md R8). -/
def dig (k n : Nat) : Nat := n / 10 ^ k % 10

/-- Mode digit values (R72); any other digit has no mode. -/
def modeOfDigit : Nat → Option Mode
  | 0 => some .position
  | 1 => some .immediate
  | 2 => some .relative
  | _ => none

/-- The digit of a mode (R72). -/
def Mode.digit : Mode → Nat
  | .position => 0
  | .immediate => 1
  | .relative => 2

/-- The opcode map (R80), with the modes of parameters 1, 2, 3; the modes of parameters the opcode does
not have are dropped (R76). -/
def instrOfOpcode (opcode : Nat) (m1 m2 m3 : Mode) : Option Instr :=
  match opcode with
  | 1 => some (.add m1 m2 m3)
  | 2 => some (.mul m1 m2 m3)
  | 3 => some (.inp m1)
  | 4 => some (.out m1)
  | 5 => some (.jnz m1 m2)
  | 6 => some (.jz m1 m2)
  | 7 => some (.lt m1 m2 m3)
  | 8 => some (.eq m1 m2 m3)
  | 9 => some (.arb m1)
  | 99 => some .hlt
  | _ => none

/-- Steps 2 to 5 of `decode`, for a word in `0 .. 99999`: all three mode digits are validated before the
opcode is looked up (R74, R75). -/
def decodeDigits (n : Nat) : Decoded :=
  match modeOfDigit (dig 2 n), modeOfDigit (dig 3 n), modeOfDigit (dig 4 n) with
  | some m1, some m2, some m3 =>
    match instrOfOpcode (n % 100) m1 m2 m3 with
    | some i => .decoded i
    | none => .unknownOpcode
  | _, _, _ => .decodeError

/-- `decode(w)`, total on every word (R74). -/
def decode (w : Word) : Decoded :=
  if w.toInt < 0 ∨ 99999 < w.toInt then .decodeError else decodeDigits w.toInt.toNat

/-- The opcode of an instruction (R80). -/
def Instr.opcode : Instr → Nat
  | .add _ _ _ => 1
  | .mul _ _ _ => 2
  | .inp _ => 3
  | .out _ => 4
  | .jnz _ _ => 5
  | .jz _ _ => 6
  | .lt _ _ _ => 7
  | .eq _ _ _ => 8
  | .arb _ => 9
  | .hlt => 99

/-- The width `W` of an instruction in words, a function of the opcode alone (R70, R79). -/
def Instr.width : Instr → Nat
  | .add _ _ _ => 4
  | .mul _ _ _ => 4
  | .inp _ => 2
  | .out _ => 2
  | .jnz _ _ => 3
  | .jz _ _ => 3
  | .lt _ _ _ => 4
  | .eq _ _ _ => 4
  | .arb _ => 2
  | .hlt => 1

/-- The modes of parameters 1, 2, 3, Position where the opcode has no such parameter, so that the word made
of them is the canonical one (R76). -/
def Instr.modes : Instr → Mode × Mode × Mode
  | .add a b dst => (a, b, dst)
  | .mul a b dst => (a, b, dst)
  | .inp dst => (dst, .position, .position)
  | .out a => (a, .position, .position)
  | .jnz a target => (a, target, .position)
  | .jz a target => (a, target, .position)
  | .lt a b dst => (a, b, dst)
  | .eq a b dst => (a, b, dst)
  | .arb a => (a, .position, .position)
  | .hlt => (.position, .position, .position)

/-- `opcode + 100*m1 + 1000*m2 + 10000*m3` (R71). -/
def wordOfFields (opcode : Nat) (m1 m2 m3 : Mode) : Nat :=
  opcode + 100 * m1.digit + 1000 * m2.digit + 10000 * m3.digit

/-- The canonical instruction word (R90). -/
def encode (i : Instr) : Word :=
  BitVec.ofNat 64 (wordOfFields i.opcode i.modes.1 i.modes.2.1 i.modes.2.2)

/-- Word `k` of an instruction written as one number of `nbits` bits, 64 bits a word, the first word lowest;
every bit above `nbits` is 0. The table's encoding is decimal and numbers no bits (R92), so this
numbering is the model's (log entry 7). -/
def tableWord (nbits w k : Nat) : Word :=
  BitVec.ofNat 64 (w % 2 ^ nbits / 2 ^ (64 * k))

/-- The instruction the decoder reads from an instruction word numbered as `tableWord` numbers it. -/
def decodeTableWord (nbits w : Nat) : Option Instr :=
  match decode (tableWord nbits w 0) with
  | .decoded i => some i
  | .unknownOpcode => none
  | .decodeError => none

end Sys2Proof
end

