-- ==== Sys2Proof/Machine/Ports.lean ====
section
/-! DEFINITION. Machine/Ports.lean: the four port operations, in both kinds (43_io.md R132 to R148). -/

namespace Sys2Proof.Machine

/-- A channel port as created (10_state.md R30, R35). -/
def ChannelPort.empty (downstream : Option Nat) : ChannelPort :=
  { inbox := [], lastOut := none, history := [], downstream := downstream }

/-- `add_input(v)`: append to the FIFO (R134), or to the inbox (R139). -/
def Port.addInput (p : Port) (x : Word) : Port :=
  match p with
  | .queue q => .queue { q with inFifo := q.inFifo ++ [x] }
  | .channel c => .channel { c with inbox := c.inbox ++ [x] }

/-- What `take_input()` comes to. -/
inductive Taken where
  /-- A value, and the port without it. -/
  | value (x : Word) (p : Port)
  /-- `InputStarvation`. -/
  | starved (why : Starvation)
  /-- The blocking receive waits: no step. -/
  | wait
deriving DecidableEq, Repr

/-- `take_input()`: R135 for a queue port; R141 for a channel port, with the starvation of R142 and R205 when the
network is quiescent. -/
def Port.takeInput (p : Port) (quiescent : Bool) : Taken :=
  match p with
  | .queue q =>
    match q.inFifo with
    | [] => .starved .queueEmpty
    | x :: rest => .value x (.queue { q with inFifo := rest })
  | .channel c =>
    match c.inbox with
    | [] => if quiescent then .starved .timedOut else .wait
    | x :: rest => .value x (.channel { c with inbox := rest })

/-- The local part of `write_output(v)`: the last output and the history, always kept (R137, R143, decision D12). -/
def Port.record (p : Port) (x : Word) : Port :=
  match p with
  | .queue q => .queue { q with lastOut := some x, history := q.history ++ [x] }
  | .channel c => .channel { c with lastOut := some x, history := c.history ++ [x] }

/-- The VM a port sends to, if it has one; a queue port has none. -/
def Port.downstream : Port → Option Nat
  | .queue _ => none
  | .channel c => c.downstream

/-- `read_output()` (R136, R144): the last output; `none` is the host-side failure `NoOutput`. -/
def Port.readOutput : Port → Option Word
  | .queue q => q.lastOut
  | .channel c => c.lastOut

/-- The full output history (60_exceptions.md R185). -/
def Port.history : Port → List Word
  | .queue q => q.history
  | .channel c => c.history

/-- The words that wait to be taken. -/
def Port.pending : Port → List Word
  | .queue q => q.inFifo
  | .channel c => c.inbox

/-- A channel port with an empty inbox, on which `take_input` waits (R141). A queue port never waits (R135). -/
def Port.waiting : Port → Bool
  | .queue _ => false
  | .channel c => c.inbox.isEmpty

/-- The invariant of R29: `last_out` is the last element of `history`, `none` exactly when that is empty. -/
def Port.wf (p : Port) : Bool := decide (p.readOutput = p.history.getLast?)

end Sys2Proof.Machine
end

