-- ==== Sys2Proof/Machine/Network.lean ====
section
/-! DEFINITION. Machine/Network.lean: the concurrent VM scheduler and inter-VM channel arbiter (60_exceptions.md R200 to R206;
10_state.md R31). -/

namespace Sys2Proof.Machine

/-- The topology (R31): VM `i` feeds VM `i+1`; the last feeds VM 0 in a ring and nobody in a chain. -/
def downstreamOf (n : Nat) (feedback : Bool) (i : Nat) : Option Nat :=
  if i + 1 < n then some (i + 1) else if feedback then some 0 else none

/-- Whether the VM's next instruction is IN. -/
def Vm.nextIsIn (v : Vm) : Bool :=
  match decode v.instrWord with
  | .decoded (.inp _) => true
  | .decoded (.add _ _ _) => false
  | .decoded (.mul _ _ _) => false
  | .decoded (.out _) => false
  | .decoded (.jnz _ _) => false
  | .decoded (.jz _ _) => false
  | .decoded (.lt _ _ _) => false
  | .decoded (.eq _ _ _) => false
  | .decoded (.arb _) => false
  | .decoded .hlt => false
  | .unknownOpcode => false
  | .decodeError => false

/-- Blocked: `Running`, next instruction IN, channel port, empty inbox (00_scope.md R12, 10_state.md R32). -/
def Vm.blocked (v : Vm) : Bool := v.st.isRunning && v.nextIsIn && v.port.waiting

/-- Enabled: `Running` and not blocked (R12). -/
def Vm.enabled (v : Vm) : Bool := v.st.isRunning && !v.blocked

/-- The indices of the VMs that pass a test, in pipeline order. -/
def State.indices (s : State) (p : Vm → Bool) : List Nat :=
  (List.range s.vms.length).filter fun k => (s.vms[k]?).any p

/-- Quiescent: no VM is enabled (R204). -/
def State.quiescent (s : State) : Bool := s.vms.all fun v => !v.enabled

/-- The VMs that may take the next network step: any enabled VM (R202, R203), and in a quiescent network any
blocked VM, whose step is its starvation fault (R205). -/
def State.candidates (s : State) : List Nat :=
  if s.quiescent then s.indices Vm.blocked else s.indices Vm.enabled

/-- The scheduler's choice among the candidates: the VM that `cur` names if it is one of them, else one that `cur`
picks by its remainder, so that every candidate is the choice for some `cur` (R203; log entry 4). -/
def pick (cur : Nat) : List Nat → Option Nat
  | [] => none
  | [k] => some k
  | k :: l :: rest =>
    if (k :: l :: rest).contains cur then some cur
    else (k :: l :: rest)[cur % (k :: l :: rest).length]?

/-- The VM that steps next; none when every VM is terminal. -/
def State.chosen (s : State) : Option Nat := pick s.cur s.candidates

/-- After a network step: count it and draw the next choice from the free schedule (log entry 4). -/
def State.reschedule (s : State) : State :=
  { s with cur := Config.schedule s.turn, turn := s.turn + 1 }

/-- `send(j, x)`: append to the inbox of VM `j` (43_io.md R140), whatever its run state (R145). There is no VM
`j` only in states outside the invariant. -/
def State.send (s : State) (j : Nat) (x : Word) : Option State :=
  if j < s.vms.length then
    some { s with vms := s.vms.modify j fun v => { v with port := v.port.addInput x } }
  else none

/-- `write_output(x)` of the stepping VM: record locally and, if a downstream is configured, send (R137, R143). -/
def State.writeOutput (s : State) (v : Vm) (x : Word) : Option State :=
  let recorded := s.setVm { v with port := v.port.record x }
  match v.port.downstream with
  | none => some recorded
  | some j => recorded.send j x

end Sys2Proof.Machine
end

