-- ==== Sys2Proof/Machine/Io.lean ====
section
/-! DEFINITION. Machine/Io.lean: IN and OUT (43_io.md). -/

namespace Sys2Proof.Machine

/-- The VM after IN has taken `x`, with `p` the port without it (R130): write parameter 1, advance by 2. -/
def storeInput (dst : Mode) (x : Word) (p : Port) (v : Vm) : Vm :=
  Vm.orRaise { v with port := p } v.instrWord (wr v 1 dst x) fun mem =>
    Vm.advance { v with port := p, mem := mem } v.instrWord 2

/-- IN (R130): the input is taken before the destination is looked at (60_exceptions.md R176). -/
def execIn (dst : Mode) (s : State) : Result :=
  onRunning s fun v =>
    match v.port.takeInput s.quiescent with
    | .value x p => .next (s.setVm (storeInput dst x p v))
    | .starved why => .next (s.setVm (v.raise v.instrWord (.inputStarvation why)))
    | .wait => .fault .blocked

/-- OUT (R131): read parameter 1, write the output, advance by 2. -/
def execOut (a : Mode) (s : State) : Result :=
  onRunning s fun v =>
    match rd v 1 a with
    | .error f => .next (s.setVm (v.raise v.instrWord f))
    | .ok x =>
      match s.writeOutput v x with
      | some s1 => .next (s1.modifyVm fun v1 => v1.advance v.instrWord 2)
      | none => .fault .noSuchVm

end Sys2Proof.Machine
end

