-- ==== Sys2Proof/Machine/RelBase.lean ====
section
/-! DEFINITION. Machine/RelBase.lean: ARB (44_relative_base.md). -/

namespace Sys2Proof.Machine

/-- The VM after ARB (R160): read with the old base, form the new one in `Z`, check it, then advance by 2. -/
def adjustBase (a : Mode) (v : Vm) : Vm :=
  v.orRaise v.instrWord (rd v 1 a) fun x =>
    v.orRaise v.instrWord (checkAddr ((v.rb : Int) + x.toInt)) fun r =>
      Vm.advance { v with rb := r } v.instrWord 2

/-- ARB (R160). -/
def execArb (a : Mode) (s : State) : Result := onVm s (adjustBase a)

end Sys2Proof.Machine
end

