-- ==== Sys2Proof/Machine/Fetch.lean ====
section
/-! DEFINITION. Machine/Fetch.lean: the step of one VM up to its instruction (42_control.md R126), and the network step
around it (60_exceptions.md R202). `exec` is an argument, so that Step.lean only ties the knot. -/

namespace Sys2Proof.Machine

/-- Fetch and decode, then run the instruction, or raise the decode fault (R126; 30_encoding.md R83 to R85). -/
def fetchAndRun (run : Instr → State → Result) (s : State) : Result :=
  onRunning s fun v =>
    match memRead v.mem v.ip with
    | .error _ => .fault .ipOutOfRange
    | .ok w =>
      match decode w with
      | .decoded i => run i s
      | .decodeError => .next (s.setVm (v.raise w .decodeError))
      | .unknownOpcode => .next (s.setVm (v.raise w .unknownOpcode))

/-- A network step: one step of the chosen VM; none when every VM is terminal (R202, R206). -/
def networkStep (one : Nat → State → Result) (s : State) : Result :=
  match s.chosen with
  | none => .fault .runOver
  | some k =>
    match one k s with
    | .next t => .next t.reschedule
    | .fault f => .fault f
    | .refused r => .refused r

/-- Place four words where the VM that steps next fetches its instruction, make that VM the scheduler's choice,
and make it `Running`, so that the very next step runs that instruction. (The one exception is an IN placed for a VM
whose inbox is empty while another VM is enabled: such a VM has no step, R126.) A program comes into the machine only
by such a load from outside (log entry 6). -/
def State.placeWords (s : State) (word : Nat → Word) : State :=
  let k := s.chosen.getD 0
  { s with
    cur := k
    vms := s.vms.modify k fun v => { v with st := .running, mem := v.mem.place v.ip word } }

end Sys2Proof.Machine
end

