-- ==== Sys2Proof/Machine/Step.lean ====
section
/-! DEFINITION. Machine/Step.lean: the step of one VM, the network step, and the step relation over every schedule. -/

namespace Sys2Proof.Machine

/-- The step of VM `k` (42_control.md R126): "One step executes exactly one instruction completely, or faults, or
(blocked) does not happen." -/
def stepVm (k : Nat) (s : State) : Result := fetchAndRun exec (s.select k)

/-- The network step under the schedule that `cur` and `Config.schedule` give (60_exceptions.md R202, R203). -/
def step (s : State) : Host.Outcome State Fault Refusal := networkStep stepVm s

/-- The step relation, with the schedule left out: any candidate VM may take the next step (R202, R203, R205). -/
inductive NetStep (s t : State) : Prop where
  | vm (k : Nat) (may : k ∈ s.candidates) (steps : stepVm k s = .next t)

/-- Any number of network steps, on any schedule. -/
inductive Reaches (s : State) : State → Prop where
  | refl : Reaches s s
  | tail {t u : State} (before : Reaches s t) (last : NetStep t u) : Reaches s u

/-- The machine with an instruction stored where the next step fetches it. -/
def State.withFetchWord (s : State) (nbits w : Nat) : State := s.placeWords (tableWord nbits w)

end Sys2Proof.Machine
end

