-- ==== Sys2Proof/Machine/Boot.lean ====
section
/-! DEFINITION. Machine/Boot.lean: what the host does before a run (70_reset_and_hazards.md R230 to R235). -/

namespace Sys2Proof.Machine

/-- Creating a Memory from a Program (R232). -/
def Memory.ofProgram (program : List Word) : Memory := { tape := program, ext := [] }

/-- `add_input` every word of a list, in order (R234 step 3). -/
def Port.addInputs (p : Port) (xs : List Word) : Port := xs.foldl Port.addInput p

/-- The start of `run(memory, io_port)` (60_exceptions.md R214): fresh registers around a Memory, which an earlier
run may have left (10_state.md R36), and a queue port. That the port may be any, one that an earlier run has left with
outputs in it included, and is taken as it stands, is the model's DESIGN CHOICE (log entry 20): R36 names only the Memory
as what a later run may be given, and R35 and R234 (2) start from a port just created. -/
def State.standalone (mem : Memory) (q : QueuePort) : State :=
  { vms := [Vm.start mem (.queue q)], feedback := false, cur := 0, turn := 0 }

/-- The stand-alone boot sequence (R234) with a fresh Memory and the inputs the program will ask for. -/
def State.boot (program inputs : List Word) : State :=
  { vms := [Vm.start (Memory.ofProgram program) (Port.addInputs (.queue QueuePort.empty) inputs)]
    feedback := false, cur := 0, turn := 0 }

/-- Steps 1, 2 and 4 of the network boot for VM `i` of `n` (R235): a Memory of its own, a channel port with an empty
inbox wired by the topology, and fresh registers. -/
def bootVm (program : List Word) (n : Nat) (feedback : Bool) (i : Nat) : Vm :=
  Vm.start (Memory.ofProgram program) (.channel (ChannelPort.empty (downstreamOf n feedback i)))

/-- `add_input` on the port of one VM. -/
def Vm.seed (x : Word) (v : Vm) : Vm := { v with port := v.port.addInput x }

/-- The network boot sequence (R235): construct and wire all VMs, seed each with its phase setting, then VM 0 with the
initial input. An empty list of phase settings is refused: the call "has no outcome" (60_exceptions.md R211, D23). -/
def State.network (program phases : List Word) (initial : Word) (feedback : Bool) : Option State :=
  match phases with
  | [] => none
  | _ :: _ =>
    some
      { vms := (phases.mapIdx fun i phase => (bootVm program phases.length feedback i).seed phase).modify 0
          (Vm.seed initial)
        feedback := feedback, cur := 0, turn := 0 }

end Sys2Proof.Machine
end

