-- ==== Sys2Proof/Machine/Invoke.lean ====
section
/-! DEFINITION. Machine/Invoke.lean: what the host reads after a run (10_state.md R37), the result of `evaluate` and its failures
(60_exceptions.md R206, R210 to R212), and the permutation search (R213). -/

namespace Sys2Proof.Machine

/-- The run is over: every VM is terminal (R206). -/
def State.over (s : State) : Bool := s.vms.all fun v => !v.st.isRunning

/-- The fault record of a VM, if it is `Faulted`. -/
def RunState.record? : RunState → Option FaultRecord
  | .running => none
  | .halted => none
  | .faulted r => some r

/-- The fault records of all `Faulted` VMs, each with its VM index (R212, decision D19). -/
def State.faultRecords (s : State) : List (Nat × FaultRecord) :=
  (List.range s.vms.length).filterMap fun k =>
    ((s.vms[k]?).bind fun v => v.st.record?).map fun r => (k, r)

/-- What `evaluate` comes to (R211, R212). -/
inductive EvalResult where
  | value (r : Word)
  /-- `PermutationEvaluationError`, with the records of every `Faulted` VM. -/
  | permutationEvaluationError (records : List (Nat × FaultRecord))
  /-- The last VM never wrote an output (decision D11). -/
  | noOutput
deriving DecidableEq, Repr

/-- The result of `evaluate`, read only after the join (R210); the fault test comes before the `NoOutput` test
(decision D30). -/
def State.result (s : State) : Option EvalResult :=
  if s.over then
    match s.faultRecords with
    | r :: rest => some (.permutationEvaluationError (r :: rest))
    | [] =>
      match s.vms.getLast?.bind fun v => v.port.readOutput with
      | some x => some (.value x)
      | none => some .noOutput
  else none

/-- `evaluate(program, phase_settings, initial_input, feedback)` may return `r`: on some schedule the network runs to
its end and the host reads `r` (R211). -/
def Evaluates (program phases : List Word) (initial : Word) (feedback : Bool) (r : EvalResult) : Prop :=
  ∃ s t, State.network program phases initial feedback = some s ∧ Reaches s t ∧ t.result = some r

/-- `run(memory, io_port)` may leave the machine as `t`: registers are created around the Memory and the queue port, and
steps are taken until the VM is terminal (R214). The port may hold outputs of an earlier run (DESIGN CHOICE, log entry 20). -/
def Runs (mem : Memory) (q : QueuePort) (t : State) : Prop :=
  Reaches (State.standalone mem q) t ∧ t.over = true

/-- What the host may observe of a VM after its run, besides `M(a)`: `L`, `last_out`, `history`, and, if it is `Faulted`,
the fault record with its frozen `ip` and `rb` (10_state.md R37, decision D24). -/
structure Report where
  tapeLength : Nat
  lastOut : Option Word
  history : List Word
  fault : Option (FaultRecord × Nat × Nat)
deriving DecidableEq, Repr

/-- What there is to observe of a VM. -/
def Vm.report (v : Vm) : Report :=
  { tapeLength := v.mem.tape.length, lastOut := v.port.readOutput, history := v.port.history
    fault := v.st.record?.map fun r => (r, v.ip, v.rb) }

/-- The host's look at VM `k`: it joins all VMs before it reads anything of any of them (R210, R215), so there is
nothing to see while some VM still runs, be it another one. -/
def State.report (s : State) (k : Nat) : Option Report :=
  if s.over then (s.vms[k]?).map Vm.report else none

/-- The host's reading of `M(a)` in VM `k`, after the join only (R37, R210, R215). -/
def State.readMemory (s : State) (k a : Nat) : Option Word :=
  if s.over = true ∧ a ≤ Config.addrMax then (s.vms[k]?).map fun v => v.mem.read a else none

/-- The codes of the five faults (60_exceptions.md R170, decision D17). -/
def VmFault.code : VmFault → Nat
  | .decodeError => 1
  | .unknownOpcode => 2
  | .invalidWriteTarget _ => 3
  | .inputStarvation _ => 4
  | .addressRangeFault _ => 5

/-- The permutation search from the best so far (R213): "retain the maximum final output observed", the first one on
ties ("a strict `>` comparison"); a failed evaluation stops the search with its error. The list gives the
permutations in the order `PERM_ORDER`, which is the caller's (00_scope.md R7). -/
def searchFrom (best : Option (List Word × Word)) :
    List (List Word × EvalResult) → Except EvalResult (Option (List Word × Word))
  | [] => .ok best
  | (p, .value r) :: rest =>
    match best with
    | none => searchFrom (some (p, r)) rest
    | some (q, m) => if r.toInt > m.toInt then searchFrom (some (p, r)) rest else searchFrom (some (q, m)) rest
  | (_, .permutationEvaluationError records) :: _ => .error (.permutationEvaluationError records)
  | (_, .noOutput) :: _ => .error .noOutput

/-- The permutation search (R213). -/
def search (evaluations : List (List Word × EvalResult)) : Except EvalResult (Option (List Word × Word)) :=
  searchFrom none evaluations

/-- `order` enumerates the permutations of the phase-setting set, each once. Which enumeration it is, is `PERM_ORDER`
(R213, decision D20: open in the spec, so an argument). -/
def Enumerates (order : List (List Word)) (phaseSet : List Word) : Prop :=
  order.Nodup ∧ ∀ p : List Word, p ∈ order ↔ p.Perm phaseSet

/-- "maximize output over phase permutations" (R213) may come to `out`: the permutations of the phase set are taken in
their order, each is evaluated on a fresh network (`Evaluates`), and the search over what these evaluations gave is
`out`. All permutations are evaluated unless a failed evaluation stops the search; one that never ends leaves the
search without an outcome. -/
def Searches (program phaseSet : List Word) (initial : Word) (feedback : Bool) (order : List (List Word))
    (out : Except EvalResult (Option (List Word × Word))) : Prop :=
  Enumerates order phaseSet ∧
    ∃ evaluations : List (List Word × EvalResult),
      (∀ pr ∈ evaluations, Evaluates program pr.1 initial feedback pr.2) ∧
      evaluations.map Prod.fst <+: order ∧
      (evaluations.map Prod.fst = order ∨ ∃ e : EvalResult, out = .error e) ∧
      search evaluations = out

end Sys2Proof.Machine
end

