-- ==== Sys2Proof/Safety.lean ====
section
/-! DEFINITION. Safety.lean: the invariant that every state of a run meets, and what counts as a run that ends well. -/

namespace Sys2Proof.Machine

/-- What every rule preserves of one VM: `ip` and `rb` in `0 .. ADDR_MAX` (10_state.md R21, R22), the canonical Memory
(R27), and the port's `last_out` (R29). -/
structure Vm.Inv (v : Vm) : Prop where
  ip_le : v.ip ≤ Config.addrMax
  rb_le : v.rb ≤ Config.addrMax
  mem_wf : v.mem.wf = true
  port_wf : v.port.wf = true

/-- VM `k`'s port is the one its machine gives it: a queue port for a stand-alone VM, or a channel port wired by the
topology (R28, R31). -/
def Port.wired (p : Port) (n : Nat) (feedback : Bool) (k : Nat) : Prop :=
  match p with
  | .queue _ => n = 1
  | .channel c => c.downstream = downstreamOf n feedback k

/-- The invariant of the machine. -/
structure State.Inv (s : State) : Prop where
  vms_ne : s.vms ≠ []
  vm_inv : ∀ (k : Nat) (v : Vm), s.vms[k]? = some v → v.Inv
  topology : ∀ (k : Nat) (v : Vm), s.vms[k]? = some v → v.port.wired s.vms.length s.feedback k

/-- `v` is the stepping VM, and it is `Running`. -/
def State.Stepping (s : State) (v : Vm) : Prop := s.vms[s.cur]? = some v ∧ v.st = .running

/-- The four instructions of format F3, each with the value it stores and its three modes. -/
def binaryForm : Instr → Option ((Word → Word → Word) × Mode × Mode × Mode)
  | .add a b dst => some (addValue, a, b, dst)
  | .mul a b dst => some (mulValue, a, b, dst)
  | .lt a b dst => some (ltValue, a, b, dst)
  | .eq a b dst => some (eqValue, a, b, dst)
  | .inp _ => none
  | .out _ => none
  | .jnz _ _ => none
  | .jz _ _ => none
  | .arb _ => none
  | .hlt => none

/-- The two jumps, each with its test on parameter 1 and its two modes. -/
def jumpForm : Instr → Option ((Word → Bool) × Mode × Mode)
  | .jnz a target => some (nonZero, a, target)
  | .jz a target => some (isZero, a, target)
  | .add _ _ _ => none
  | .mul _ _ _ => none
  | .inp _ => none
  | .out _ => none
  | .lt _ _ _ => none
  | .eq _ _ _ => none
  | .arb _ => none
  | .hlt => none

/-- An instruction none of whose parameters is in Relative mode. -/
def noRelative (i : Instr) : Prop :=
  i.modes.1 ≠ .relative ∧ i.modes.2.1 ≠ .relative ∧ i.modes.2.2 ≠ .relative

/-- The same VM with another relative base. -/
def Vm.withBase (v : Vm) (r : Nat) : Vm := { v with rb := r }

/-- The same machine with another relative base in the stepping VM. -/
def State.withBase (s : State) (r : Nat) : State := s.modifyVm fun v => v.withBase r

/-- VM `k` is enabled (00_scope.md R12). -/
def State.enables (s : State) (k : Nat) : Prop := ∃ v : Vm, s.vms[k]? = some v ∧ v.enabled = true

/-- A run that never ends, and the VM that takes each of its steps (60_exceptions.md R203, R206). -/
structure InfiniteRun (run : Nat → State) (who : Nat → Nat) : Prop where
  may : ∀ n : Nat, who n ∈ (run n).candidates
  steps : ∀ n : Nat, stepVm (who n) (run n) = .next (run (n + 1))

/-- Weak fairness (R203, decision D21): "a VM that stays enabled is eventually stepped". The step itself imposes none:
only a statement about runs that never end may take it as a premise (log entry 4). -/
def WeaklyFair (run : Nat → State) (who : Nat → Nat) : Prop :=
  ∀ n k : Nat, (∀ m : Nat, n ≤ m → (run m).enables k) → ∃ m : Nat, n ≤ m ∧ who m = k

/-- A run that ends well: every VM is `Halted`, none `Faulted` (60_exceptions.md R187). -/
def State.endedWell (s : State) : Prop := ∀ v ∈ s.vms, v.st = .halted

/-- A safe state: no VM is `Faulted`. -/
def State.safe (s : State) : Prop := s.faultRecords = []

end Sys2Proof.Machine
end

