-- ==== Sys2Proof/WellFormed.lean ====
section
/-! DEFINITION. WellFormed.lean: which instructions a program may hope to complete (20_memory.md R46, 30_encoding.md R77, R90). -/

namespace Sys2Proof

/-- A parameter that is written takes Position or Relative mode only (R46: Immediate is "write-illegal"). -/
def Mode.writable : Mode → Bool
  | .position => true
  | .immediate => false
  | .relative => true

/-- The destination of every storing instruction is writable. An ill-formed instruction still decodes
(R86: the decoder does not reject it) and raises `InvalidWriteTarget` when it comes to its write. -/
def Instr.wellFormed : Instr → Bool
  | .add _ _ dst => dst.writable
  | .mul _ _ dst => dst.writable
  | .inp dst => dst.writable
  | .out _ => true
  | .jnz _ _ => true
  | .jz _ _ => true
  | .lt _ _ dst => dst.writable
  | .eq _ _ dst => dst.writable
  | .arb _ => true
  | .hlt => true

end Sys2Proof
end

