-- ==== Sys2Proof/Certificates/Slice0/Obligations.lean ====
section
/-! DEFINITION. Certificates/Slice0/Obligations.lean: the statements for the provers. Each docstring names the rules of spec/ it
rests on, and the decisions or log entries that are the spec's or the model's own choice. -/

open Sys2Proof Sys2Proof.Machine

/-! ## Encoding -/

/-- R71, R74, R90: the canonical word of every instruction, with every mode in every place, decodes to it. -/
def Obligations.DecodeEncodeRoundTrip : Prop := ∀ i : Instr, decode (encode i) = .decoded i

/-- R71, R76, R77, R80: a word that is `opcode + 100*m1 + 1000*m2 + 10000*m3` decodes to the instruction of its opcode
with the modes the opcode has; the modes it does not have make no difference. -/
def Obligations.DecodeReadsEveryField : Prop :=
  ∀ (w : Word) (m1 m2 m3 : Mode) (op : Nat),
    w.toInt = op + 100 * m1.digit + 1000 * m2.digit + 10000 * m3.digit →
    (op = 1 → decode w = .decoded (.add m1 m2 m3)) ∧ (op = 2 → decode w = .decoded (.mul m1 m2 m3)) ∧
    (op = 3 → decode w = .decoded (.inp m1)) ∧ (op = 4 → decode w = .decoded (.out m1)) ∧
    (op = 5 → decode w = .decoded (.jnz m1 m2)) ∧ (op = 6 → decode w = .decoded (.jz m1 m2)) ∧
    (op = 7 → decode w = .decoded (.lt m1 m2 m3)) ∧ (op = 8 → decode w = .decoded (.eq m1 m2 m3)) ∧
    (op = 9 → decode w = .decoded (.arb m1)) ∧ (op = 99 → decode w = .decoded .hlt)

/-- R73, R74, R75 (decisions D5 and D6): every other word is refused, by the name the rules give. -/
def Obligations.OtherWordsAreRefusedByName : Prop :=
  ∀ w : Word,
    (w.toInt < 0 ∨ 99999 < w.toInt → decode w = .decodeError) ∧
    (0 ≤ w.toInt → w.toInt ≤ 99999 →
      (3 ≤ dig 2 w.toInt.toNat ∨ 3 ≤ dig 3 w.toInt.toNat ∨ 3 ≤ dig 4 w.toInt.toNat →
        decode w = .decodeError) ∧
      (dig 2 w.toInt.toNat ≤ 2 → dig 3 w.toInt.toNat ≤ 2 → dig 4 w.toInt.toNat ≤ 2 →
        w.toInt.toNat % 100 ∉ [1, 2, 3, 4, 5, 6, 7, 8, 9, 99] → decode w = .unknownOpcode))

/-- A few words of 95_test_vectors.md section 2 (R91 is the source's own: 1002). That 399 and 100001 are `DecodeError`s is the
spec's own choice, decisions D6 and D5 (log entry 12). -/
def Obligations.WordsOfTheSpecDecode : Prop :=
  decode 1002 = .decoded (.mul .position .immediate .position) ∧
  decode 21101 = .decoded (.add .immediate .immediate .relative) ∧
  decode 203 = .decoded (.inp .relative) ∧ decode 21004 = .decoded (.out .position) ∧
  decode 2106 = .decoded (.jz .immediate .relative) ∧ decode 22299 = .decoded .hlt ∧
  decode 0 = .unknownOpcode ∧ decode 399 = .decodeError ∧ decode 100001 = .decodeError

/-! ## Memory, addresses, operands -/

/-- R232: "`M(i) = P_i` for `i < L` and `M(a) = 0` for `a ≥ L`". -/
def Obligations.FreshMemoryHoldsTheProgram : Prop :=
  ∀ program : List Word,
    (Memory.ofProgram program).tape = program ∧ (Memory.ofProgram program).ext = [] ∧
    (∀ (i : Nat) (x : Word), program[i]? = some x → (Memory.ofProgram program).read i = x) ∧
    (∀ a : Nat, program.length ≤ a → (Memory.ofProgram program).read a = 0)

/-- R45: after a write the address reads as written, every other address as before, and `L` is unchanged. The premise is
the canonical form (10_state.md R27, log entry 2). -/
def Obligations.StoredWordReadsBackAlone : Prop :=
  ∀ (m : Memory) (a : Nat) (x : Word), m.wf = true →
    (m.write a x).read a = x ∧ (∀ b : Nat, b ≠ a → (m.write a x).read b = m.read b) ∧
    (m.write a x).tape.length = m.tape.length

/-- R43, R44 (decisions D1, D2): a read is of `M(a)` at a valid address and raises `AddressRangeFault(a)` at any other. -/
def Obligations.MemReadChecksItsAddress : Prop :=
  ∀ (m : Memory) (a : Int),
    (∀ n : Nat, a = n → n ≤ 2 ^ 63 - 1 → memRead m a = .ok (m.read n)) ∧
    (a < 0 ∨ 2 ^ 63 - 1 < a → memRead m a = .error (.addressRangeFault a))

/-- R48, R43, R44, R47: `rd(k)` in each mode, and the only fault it can raise. The range of an address and the fault are decisions
D1 and D2 (log entries 3, 11); that the Relative sum is formed in `Z` is decision D27 (log entry 11). -/
def Obligations.ReadParameterByMode : Prop :=
  ∀ (v : Vm) (k : Nat) (m : Mode),
    (2 ^ 63 - 1 < v.ip + k → rd v k m = .error (.addressRangeFault (v.ip + k))) ∧
    (v.ip + k ≤ 2 ^ 63 - 1 →
      (m = .immediate → rd v k m = .ok (v.mem.read (v.ip + k))) ∧
      (m = .position → rd v k m = memRead v.mem (v.mem.read (v.ip + k)).toInt) ∧
      (m = .relative → rd v k m = memRead v.mem ((v.mem.read (v.ip + k)).toInt + v.rb))) ∧
    (∀ f : VmFault, rd v k m = .error f → ∃ a : Int, f = .addressRangeFault a)

/-- R49, R43: where `wr(k, _)` stores, and in which order it faults. -/
def Obligations.WriteTargetByMode : Prop :=
  ∀ (v : Vm) (k : Nat) (x : Word),
    (destAddr v k .immediate = .error (.invalidWriteTarget (v.ip + k)) ∧
      wr v k .immediate x = .error (.invalidWriteTarget (v.ip + k))) ∧
    (∀ m : Mode, m ≠ .immediate → 2 ^ 63 - 1 < v.ip + k →
      destAddr v k m = .error (.addressRangeFault (v.ip + k)) ∧
      wr v k m x = .error (.addressRangeFault (v.ip + k))) ∧
    (∀ (m : Mode) (e : Int), v.ip + k ≤ 2 ^ 63 - 1 →
      (m = .position ∧ e = (v.mem.read (v.ip + k)).toInt ∨
        m = .relative ∧ e = (v.mem.read (v.ip + k)).toInt + v.rb) →
      (0 ≤ e → e ≤ 2 ^ 63 - 1 → destAddr v k m = .ok e.toNat ∧ wr v k m x = .ok (v.mem.write e.toNat x)) ∧
      (e < 0 ∨ 2 ^ 63 - 1 < e → destAddr v k m = .error (.addressRangeFault e) ∧
        wr v k m x = .error (.addressRangeFault e)))

/-- R8, R102 (decision D7): `wrap64(z)` is the one word congruent to `z` modulo `2^64`. -/
def Obligations.WrapIsTheCongruentWord : Prop :=
  ∀ z : Int, (wrap64 z).toInt = (z + 2 ^ 63) % 2 ^ 64 - 2 ^ 63 ∧
    ∀ w : Word, (w.toInt - z) % 2 ^ 64 = 0 → w = wrap64 z

/-! ## What each instruction does when it completes -/

/-- R100, R102, R120 (D7). -/
def Obligations.AddStoresTheWrappedSum : Prop :=
  ∀ (s : State) (v : Vm) (a b dst : Mode) (x y : Word) (d : Nat),
    s.Stepping v → rd v 1 a = .ok x → rd v 2 b = .ok y → destAddr v 3 dst = .ok d → v.ip + 4 ≤ 2 ^ 63 - 1 →
    ∃ z : Word, z.toInt = (x.toInt + y.toInt + 2 ^ 63) % 2 ^ 64 - 2 ^ 63 ∧
      exec (.add a b dst) s = .next (s.setVm { v with mem := v.mem.write d z, ip := v.ip + 4 })

/-- R101, R102, R120 (D7). -/
def Obligations.MulStoresTheWrappedProduct : Prop :=
  ∀ (s : State) (v : Vm) (a b dst : Mode) (x y : Word) (d : Nat),
    s.Stepping v → rd v 1 a = .ok x → rd v 2 b = .ok y → destAddr v 3 dst = .ok d → v.ip + 4 ≤ 2 ^ 63 - 1 →
    ∃ z : Word, z.toInt = (x.toInt * y.toInt + 2 ^ 63) % 2 ^ 64 - 2 ^ 63 ∧
      exec (.mul a b dst) s = .next (s.setVm { v with mem := v.mem.write d z, ip := v.ip + 4 })

/-- R110, R111, R112: both comparisons are signed and store exactly 1 or 0. -/
def Obligations.ComparisonsStoreOneOrZero : Prop :=
  ∀ (s : State) (v : Vm) (a b dst : Mode) (x y : Word) (d : Nat),
    s.Stepping v → rd v 1 a = .ok x → rd v 2 b = .ok y → destAddr v 3 dst = .ok d → v.ip + 4 ≤ 2 ^ 63 - 1 →
    (∃ z : Word, (x.toInt < y.toInt → z.toInt = 1) ∧ (¬ x.toInt < y.toInt → z.toInt = 0) ∧
      exec (.lt a b dst) s = .next (s.setVm { v with mem := v.mem.write d z, ip := v.ip + 4 })) ∧
    (∃ z : Word, (x.toInt = y.toInt → z.toInt = 1) ∧ (x.toInt ≠ y.toInt → z.toInt = 0) ∧
      exec (.eq a b dst) s = .next (s.setVm { v with mem := v.mem.write d z, ip := v.ip + 4 }))

/-- R121, R122, R123: each jump goes to the value of parameter 2 as an absolute address, or on by 3. -/
def Obligations.JumpsGoToTheirTargetOrOn : Prop :=
  ∀ (s : State) (v : Vm) (a target : Mode) (x t : Word),
    s.Stepping v → rd v 1 a = .ok x → rd v 2 target = .ok t →
    (x.toInt ≠ 0 → ∀ n : Nat, t.toInt = n →
      exec (.jnz a target) s = .next (s.setVm { v with ip := n })) ∧
    (x.toInt = 0 → v.ip + 3 ≤ 2 ^ 63 - 1 →
      exec (.jnz a target) s = .next (s.setVm { v with ip := v.ip + 3 })) ∧
    (x.toInt = 0 → ∀ n : Nat, t.toInt = n →
      exec (.jz a target) s = .next (s.setVm { v with ip := n })) ∧
    (x.toInt ≠ 0 → v.ip + 3 ≤ 2 ^ 63 - 1 →
      exec (.jz a target) s = .next (s.setVm { v with ip := v.ip + 3 }))

/-- R130 with R135 and R141: IN takes the oldest waiting word and stores it. -/
def Obligations.InStoresTheOldestInput : Prop :=
  ∀ (s : State) (v : Vm) (dst : Mode) (x : Word) (rest : List Word) (d : Nat),
    s.Stepping v → destAddr v 1 dst = .ok d → v.ip + 2 ≤ 2 ^ 63 - 1 →
    (∀ q : QueuePort, v.port = .queue q → q.inFifo = x :: rest →
      exec (.inp dst) s = .next (s.setVm
        { v with port := .queue { q with inFifo := rest }, mem := v.mem.write d x, ip := v.ip + 2 })) ∧
    (∀ c : ChannelPort, v.port = .channel c → c.inbox = x :: rest →
      exec (.inp dst) s = .next (s.setVm
        { v with port := .channel { c with inbox := rest }, mem := v.mem.write d x, ip := v.ip + 2 }))

/-- R131 with R137 and R143 (decision D12): OUT records its word, and a channel port with a downstream also appends it to
that VM's inbox, which in a ring of one is its own. -/
def Obligations.OutRecordsAndSends : Prop :=
  ∀ (s : State) (v : Vm) (a : Mode) (x : Word),
    s.Stepping v → rd v 1 a = .ok x → v.ip + 2 ≤ 2 ^ 63 - 1 →
    (∀ q : QueuePort, v.port = .queue q →
      exec (.out a) s = .next (s.setVm
        { v with port := .queue { q with lastOut := some x, history := q.history ++ [x] }, ip := v.ip + 2 })) ∧
    (∀ c : ChannelPort, v.port = .channel c → c.downstream = none →
      exec (.out a) s = .next (s.setVm
        { v with port := .channel { c with lastOut := some x, history := c.history ++ [x] }, ip := v.ip + 2 })) ∧
    (∀ c : ChannelPort, v.port = .channel c → c.downstream = some s.cur →
      exec (.out a) s = .next (s.setVm
        { v with
          port := .channel { c with inbox := c.inbox ++ [x], lastOut := some x, history := c.history ++ [x] }
          ip := v.ip + 2 })) ∧
    (∀ (c e : ChannelPort) (j : Nat) (u : Vm), v.port = .channel c → c.downstream = some j → j ≠ s.cur →
      s.vms[j]? = some u → u.port = .channel e →
      exec (.out a) s = .next
        { s with
          vms := (s.vms.set s.cur
            { v with port := .channel { c with lastOut := some x, history := c.history ++ [x] }, ip := v.ip + 2 }).set j
              { u with port := .channel { e with inbox := e.inbox ++ [x] } } })

/-- R160: ARB adds its operand to the base in `Z`. -/
def Obligations.ArbMovesTheBase : Prop :=
  ∀ (s : State) (v : Vm) (a : Mode) (x : Word) (r : Nat),
    s.Stepping v → rd v 1 a = .ok x → (v.rb : Int) + x.toInt = r → r ≤ 2 ^ 63 - 1 → v.ip + 2 ≤ 2 ^ 63 - 1 →
    exec (.arb a) s = .next (s.setVm { v with rb := r, ip := v.ip + 2 })

/-- R124 (decision D10): HLT changes `st` and nothing else. -/
def Obligations.HltOnlyHalts : Prop :=
  ∀ (s : State) (v : Vm), s.Stepping v → exec .hlt s = .next (s.setVm { v with st := .halted })

/-! ## Where an instruction raises a fault -/

/-- R100, R101, R110, R111, R171, R176 (decisions D2, D4, D8): the faults of ADD, MUL, LT and EQ in their order. -/
def Obligations.BinaryFaultsInOrder : Prop :=
  ∀ (s : State) (v : Vm) (i : Instr) (op : Word → Word → Word) (a b dst : Mode),
    binaryForm i = some (op, a, b, dst) → s.Stepping v →
    (∀ f : VmFault, rd v 1 a = .error f →
      exec i s = .next (s.setVm { v with st := .faulted { fault := f, ip := v.ip, word := v.mem.read v.ip } })) ∧
    (∀ (x : Word) (f : VmFault), rd v 1 a = .ok x → rd v 2 b = .error f →
      exec i s = .next (s.setVm { v with st := .faulted { fault := f, ip := v.ip, word := v.mem.read v.ip } })) ∧
    (∀ (x y : Word) (f : VmFault), rd v 1 a = .ok x → rd v 2 b = .ok y → destAddr v 3 dst = .error f →
      exec i s = .next (s.setVm { v with st := .faulted { fault := f, ip := v.ip, word := v.mem.read v.ip } })) ∧
    (∀ (x y : Word) (d : Nat), rd v 1 a = .ok x → rd v 2 b = .ok y → destAddr v 3 dst = .ok d →
      2 ^ 63 - 1 < v.ip + 4 →
      exec i s = .next (s.setVm
        { v with
          mem := v.mem.write d (op x y)
          st := .faulted { fault := .addressRangeFault (v.ip + 4), ip := v.ip, word := v.mem.read v.ip } }))

/-- R121, R122, R120 (decisions D4, D9): the faults of JNZ and JZ in their order. -/
def Obligations.JumpFaultsInOrder : Prop :=
  ∀ (s : State) (v : Vm) (i : Instr) (test : Word → Bool) (a target : Mode),
    jumpForm i = some (test, a, target) → s.Stepping v →
    (∀ f : VmFault, rd v 1 a = .error f →
      exec i s = .next (s.setVm { v with st := .faulted { fault := f, ip := v.ip, word := v.mem.read v.ip } })) ∧
    (∀ (x : Word) (f : VmFault), rd v 1 a = .ok x → rd v 2 target = .error f →
      exec i s = .next (s.setVm { v with st := .faulted { fault := f, ip := v.ip, word := v.mem.read v.ip } })) ∧
    (∀ x t : Word, rd v 1 a = .ok x → rd v 2 target = .ok t → test x = true → t.toInt < 0 →
      exec i s = .next (s.setVm
        { v with st := .faulted { fault := .addressRangeFault t.toInt, ip := v.ip, word := v.mem.read v.ip } })) ∧
    (∀ x t : Word, rd v 1 a = .ok x → rd v 2 target = .ok t → test x = false → 2 ^ 63 - 1 < v.ip + 3 →
      exec i s = .next (s.setVm
        { v with st := .faulted { fault := .addressRangeFault (v.ip + 3), ip := v.ip, word := v.mem.read v.ip } }))

/-- R130, R86, R176 (decisions D4, D8): IN has taken its input when it faults at its write or its advance. -/
def Obligations.InFaultsAfterTakingItsInput : Prop :=
  ∀ (s : State) (v : Vm) (dst : Mode) (x : Word) (p : Port),
    s.Stepping v → v.port.takeInput s.quiescent = .value x p →
    (∀ f : VmFault, destAddr v 1 dst = .error f →
      exec (.inp dst) s = .next (s.setVm
        { v with port := p, st := .faulted { fault := f, ip := v.ip, word := v.mem.read v.ip } })) ∧
    (∀ d : Nat, destAddr v 1 dst = .ok d → 2 ^ 63 - 1 < v.ip + 2 →
      exec (.inp dst) s = .next (s.setVm
        { v with
          port := p, mem := v.mem.write d x
          st := .faulted { fault := .addressRangeFault (v.ip + 2), ip := v.ip, word := v.mem.read v.ip } }))

/-- R131, R176, R177 (decisions D4, D8): OUT faults before its output at its operand, after it at its advance; the word is
then recorded and sent, in a ring of one to itself. -/
def Obligations.OutFaultsInOrder : Prop :=
  ∀ (s : State) (v : Vm) (a : Mode), s.Stepping v →
    (∀ f : VmFault, rd v 1 a = .error f →
      exec (.out a) s = .next (s.setVm { v with st := .faulted { fault := f, ip := v.ip, word := v.mem.read v.ip } })) ∧
    (∀ x : Word, rd v 1 a = .ok x → 2 ^ 63 - 1 < v.ip + 2 → v.port.downstream = none →
      exec (.out a) s = .next (s.setVm
        { v with
          port := v.port.record x
          st := .faulted { fault := .addressRangeFault (v.ip + 2), ip := v.ip, word := v.mem.read v.ip } })) ∧
    (∀ x : Word, rd v 1 a = .ok x → 2 ^ 63 - 1 < v.ip + 2 → v.port.downstream = some s.cur →
      exec (.out a) s = .next (s.setVm
        { v with
          port := (v.port.record x).addInput x
          st := .faulted { fault := .addressRangeFault (v.ip + 2), ip := v.ip, word := v.mem.read v.ip } })) ∧
    (∀ (x : Word) (j : Nat) (u : Vm), rd v 1 a = .ok x → 2 ^ 63 - 1 < v.ip + 2 → v.port.downstream = some j →
      j ≠ s.cur → s.vms[j]? = some u →
      exec (.out a) s = .next
        { s with
          vms := (s.vms.set s.cur
            { v with
              port := v.port.record x
              st := .faulted { fault := .addressRangeFault (v.ip + 2), ip := v.ip, word := v.mem.read v.ip } }).set j
                { u with port := u.port.addInput x } })

/-- R160 (decisions D3, D4): ARB leaves the base alone when the new one is out of range, and has moved it when it faults
at its advance. -/
def Obligations.ArbFaultsInOrder : Prop :=
  ∀ (s : State) (v : Vm) (a : Mode), s.Stepping v →
    (∀ f : VmFault, rd v 1 a = .error f →
      exec (.arb a) s = .next (s.setVm { v with st := .faulted { fault := f, ip := v.ip, word := v.mem.read v.ip } })) ∧
    (∀ (x : Word) (r : Int), rd v 1 a = .ok x → (v.rb : Int) + x.toInt = r → r < 0 ∨ 2 ^ 63 - 1 < r →
      exec (.arb a) s = .next (s.setVm
        { v with st := .faulted { fault := .addressRangeFault r, ip := v.ip, word := v.mem.read v.ip } })) ∧
    (∀ (x : Word) (r : Nat), rd v 1 a = .ok x → (v.rb : Int) + x.toInt = r → r ≤ 2 ^ 63 - 1 →
      2 ^ 63 - 1 < v.ip + 2 →
      exec (.arb a) s = .next (s.setVm
        { v with
          rb := r
          st := .faulted { fault := .addressRangeFault (v.ip + 2), ip := v.ip, word := v.mem.read v.ip } }))

/-- R46, R86, R171, R172, R176: an ill-formed instruction decodes, does everything before its write, and raises
`InvalidWriteTarget` there. That IN has then consumed its input is decision D8 (log entry 13). -/
def Obligations.IllFormedRaisesInvalidWriteTarget : Prop :=
  ∀ (s : State) (v : Vm) (i : Instr), i.wellFormed = false → s.Stepping v →
    decode (encode i) = .decoded i ∧
    (∀ (op : Word → Word → Word) (a b dst : Mode) (x y : Word), binaryForm i = some (op, a, b, dst) →
      rd v 1 a = .ok x → rd v 2 b = .ok y →
      exec i s = .next (s.setVm
        { v with st := .faulted { fault := .invalidWriteTarget (v.ip + 3), ip := v.ip, word := v.mem.read v.ip } })) ∧
    (∀ (dst : Mode) (x : Word) (p : Port), i = .inp dst → v.port.takeInput s.quiescent = .value x p →
      exec i s = .next (s.setVm
        { v with
          port := p
          st := .faulted { fault := .invalidWriteTarget (v.ip + 1), ip := v.ip, word := v.mem.read v.ip } }))

/-- R130, R135, R171: an empty queue port is a fault at once, never a wait and never a default value; else the front is
popped. That the starvation comes before any fault of the destination is decision D8, that `ip` is kept decision D10 (log
entry 13). -/
def Obligations.QueuePortPopsOrStarves : Prop :=
  ∀ (s : State) (v : Vm) (q : QueuePort) (dst : Mode), s.Stepping v → v.port = .queue q →
    (q.inFifo = [] →
      exec (.inp dst) s = .next (s.setVm
        { v with
          st := .faulted { fault := .inputStarvation .queueEmpty, ip := v.ip, word := v.mem.read v.ip } })) ∧
    (∀ (x : Word) (rest : List Word), q.inFifo = x :: rest →
      v.port.takeInput s.quiescent = .value x (.queue { q with inFifo := rest })) ∧
    (∃ t : State, exec (.inp dst) s = .next t)

/-! ## Frames -/

/-- ADD, MUL, LT, EQ: the other VMs, `rb`, the port, `L` and every address but the one stored to are unchanged (R34, R45). -/
def Obligations.BinaryFrame : Prop :=
  ∀ (s t : State) (i : Instr) (op : Word → Word → Word) (a b dst : Mode),
    binaryForm i = some (op, a, b, dst) → exec i s = .next t →
    ∃ v v' : Vm, s.Stepping v ∧ t = s.setVm v' ∧ v'.rb = v.rb ∧ v'.port = v.port ∧
      v'.mem.tape.length = v.mem.tape.length ∧
      (∀ d : Nat, destAddr v 3 dst = .ok d → ∀ n : Nat, n ≠ d → v'.mem.read n = v.mem.read n) ∧
      (∀ f : VmFault, destAddr v 3 dst = .error f → v'.mem = v.mem) ∧ v'.st ≠ .halted

/-- IN: besides its destination it only shortens its own waiting input (R34, R130). -/
def Obligations.InFrame : Prop :=
  ∀ (s t : State) (dst : Mode), exec (.inp dst) s = .next t →
    ∃ v v' : Vm, s.Stepping v ∧ t = s.setVm v' ∧ v'.rb = v.rb ∧
      v'.port.readOutput = v.port.readOutput ∧ v'.port.history = v.port.history ∧
      v'.port.downstream = v.port.downstream ∧
      (v'.port = v.port ∨ ∃ x : Word, v.port.pending = x :: v'.port.pending) ∧
      v'.mem.tape.length = v.mem.tape.length ∧
      (∀ d : Nat, destAddr v 1 dst = .ok d → ∀ n : Nat, n ≠ d → v'.mem.read n = v.mem.read n) ∧
      (∀ f : VmFault, destAddr v 1 dst = .error f → v'.mem = v.mem) ∧ v'.st ≠ .halted

/-- OUT: no memory and no base changes; of the other VMs only the downstream one, and of it only its waiting input, which
may have grown by one word (R34, R143). -/
def Obligations.OutFrame : Prop :=
  ∀ (s t : State) (a : Mode), exec (.out a) s = .next t →
    t.feedback = s.feedback ∧ t.cur = s.cur ∧ t.turn = s.turn ∧ t.vms.length = s.vms.length ∧
    ∃ v v' : Vm, s.Stepping v ∧ t.vms[s.cur]? = some v' ∧ v'.mem = v.mem ∧ v'.rb = v.rb ∧ v'.st ≠ .halted ∧
      v'.port.downstream = v.port.downstream ∧
      (v.port.downstream ≠ some s.cur → v'.port.pending = v.port.pending) ∧
      ∀ (k : Nat) (u : Vm), k ≠ s.cur → s.vms[k]? = some u →
        (v.port.downstream ≠ some k → t.vms[k]? = some u) ∧
        (v.port.downstream = some k →
          t.vms[k]? = some u ∨ ∃ x : Word, t.vms[k]? = some { u with port := u.port.addInput x })

/-- JNZ, JZ, ARB and HLT: no memory cell, no port and no other VM changes; only ARB changes `rb`
(R34, R121, R122, R124, R160). That HLT keeps `ip` is decision D10 (log entry 13). -/
def Obligations.JumpBaseHaltFrame : Prop :=
  ∀ (s t : State) (i : Instr), ((∃ a target, i = .jnz a target) ∨ (∃ a target, i = .jz a target) ∨
      (∃ a, i = .arb a) ∨ i = .hlt) → exec i s = .next t →
    ∃ v v' : Vm, s.Stepping v ∧ t = s.setVm v' ∧ v'.mem = v.mem ∧ v'.port = v.port ∧
      ((∀ a, i ≠ .arb a) → v'.rb = v.rb) ∧ (i = .hlt → v'.ip = v.ip) ∧ (v'.st = .halted → i = .hlt)

/-! ## The step of one VM and of the machine -/

/-- R126, R202: when the word at the chosen VM's `ip` decodes, the machine's step is `exec` of that instruction with
that VM selected; around it stands only the model's own scheduling (log entry 4). -/
def Obligations.StepRunsTheDecodedInstruction : Prop :=
  ∀ (s : State) (k : Nat) (v : Vm) (i : Instr),
    s.chosen = some k → s.vms[k]? = some v → v.st = .running → v.ip ≤ 2 ^ 63 - 1 →
    decode (v.mem.read v.ip) = .decoded i →
    stepVm k s = exec i { s with cur := k } ∧
    step s =
      match exec i { s with cur := k } with
      | .next t => .next { t with cur := Config.schedule t.turn, turn := t.turn + 1 }
      | .fault f => .fault f
      | .refused r => .refused r

/-- R83, R84, R85, R73, R75: a fault at decode changes `st` and nothing else, and records the word and `ip`. That a word below
0 or above 99999 is a `DecodeError` is decision D5; that every mode digit is validated, before the opcode, is decision D6
(log entry 12). -/
def Obligations.DecodeFaultsChangeOnlyTheRunState : Prop :=
  ∀ (s : State) (k : Nat) (v : Vm) (w : Word),
    s.vms[k]? = some v → v.st = .running → v.ip ≤ 2 ^ 63 - 1 → v.mem.read v.ip = w →
    (w.toInt < 0 ∨ 99999 < w.toInt →
      stepVm k s = .next
        { s with
          cur := k
          vms := s.vms.set k { v with st := .faulted { fault := .decodeError, ip := v.ip, word := w } } }) ∧
    (∀ n : Nat, w.toInt = n → n ≤ 99999 →
      (3 ≤ dig 2 n ∨ 3 ≤ dig 3 n ∨ 3 ≤ dig 4 n →
        stepVm k s = .next
          { s with
            cur := k
            vms := s.vms.set k { v with st := .faulted { fault := .decodeError, ip := v.ip, word := w } } }) ∧
      (dig 2 n ≤ 2 → dig 3 n ≤ 2 → dig 4 n ≤ 2 → n % 100 ∉ [1, 2, 3, 4, 5, 6, 7, 8, 9, 99] →
        stepVm k s = .next
          { s with
            cur := k
            vms := s.vms.set k { v with st := .faulted { fault := .unknownOpcode, ip := v.ip, word := w } } }) ∧
      (w = 0 → dig 2 n ≤ 2 ∧ dig 3 n ≤ 2 ∧ dig 4 n ≤ 2 ∧ n % 100 ∉ [1, 2, 3, 4, 5, 6, 7, 8, 9, 99]))

/-- R125, R171, R172 (decision D10): a VM that faults keeps its `ip`, and its record names the instruction it was at. -/
def Obligations.FaultKeepsIpAndRecordsIt : Prop :=
  ∀ (s t : State) (k : Nat) (v v' : Vm) (r : FaultRecord),
    s.vms[k]? = some v → stepVm k s = .next t → t.vms[k]? = some v' → v'.st = .faulted r →
    v'.ip = v.ip ∧ r.ip = v.ip ∧ r.word = v.mem.read v.ip

/-- R177 (with R176, decisions D4, D8): a faulting step has changed nothing but `st`, but for an input that IN had taken, and
but for what the instruction had done in full before an `ip` advance past the top of the address space: the store of ADD,
MUL, LT, EQ, the input and the store of IN, the output of OUT, the base of ARB. -/
def Obligations.FaultsArePrecise : Prop :=
  ∀ (s t : State) (k : Nat) (v v' : Vm) (r : FaultRecord),
    s.vms[k]? = some v → stepVm k s = .next t → t.vms[k]? = some v' → v'.st = .faulted r →
    t = { s with cur := k, vms := s.vms.set k { v with st := .faulted r } } ∨
    (∃ (dst : Mode) (x : Word) (p : Port), decode (v.mem.read v.ip) = .decoded (.inp dst) ∧
      v.port.takeInput s.quiescent = .value x p ∧
      t = { s with cur := k, vms := s.vms.set k { v with port := p, st := .faulted r } }) ∨
    (∃ i : Instr, decode (v.mem.read v.ip) = .decoded i ∧ 2 ^ 63 - 1 < v.ip + i.width ∧
      r.fault = .addressRangeFault (v.ip + i.width) ∧
      ((∃ (op : Word → Word → Word) (a b dst : Mode) (x y : Word) (d : Nat),
          binaryForm i = some (op, a, b, dst) ∧ rd v 1 a = .ok x ∧ rd v 2 b = .ok y ∧ destAddr v 3 dst = .ok d ∧
          t = { s with
                cur := k
                vms := s.vms.set k { v with mem := v.mem.write d (op x y), st := .faulted r } }) ∨
        (∃ (dst : Mode) (x : Word) (p : Port) (d : Nat),
          i = .inp dst ∧ v.port.takeInput s.quiescent = .value x p ∧ destAddr v 1 dst = .ok d ∧
          t = { s with
                cur := k
                vms := s.vms.set k { v with port := p, mem := v.mem.write d x, st := .faulted r } }) ∨
        (∃ (a : Mode) (x : Word), i = .out a ∧ rd v 1 a = .ok x ∧
          ((v.port.downstream = none ∧
              t = { s with cur := k, vms := s.vms.set k { v with port := v.port.record x, st := .faulted r } }) ∨
            (v.port.downstream = some k ∧
              t = { s with
                    cur := k
                    vms := s.vms.set k { v with port := (v.port.record x).addInput x, st := .faulted r } }) ∨
            (∃ (j : Nat) (u : Vm), v.port.downstream = some j ∧ j ≠ k ∧ s.vms[j]? = some u ∧
              t = { s with
                    cur := k
                    vms := (s.vms.set k { v with port := v.port.record x, st := .faulted r }).set j
                      { u with port := u.port.addInput x } }))) ∨
        (∃ (a : Mode) (x : Word) (b : Nat), i = .arb a ∧ rd v 1 a = .ok x ∧ (v.rb : Int) + x.toInt = b ∧
          t = { s with cur := k, vms := s.vms.set k { v with rb := b, st := .faulted r } })))

/-- R60, R50: the word that an ADD, MUL, LT, EQ or IN (on either kind of port) stores is what a later fetch at that address reads,
and a fetch anywhere else reads what it read before; `ip` advances by the width of the instruction as it was decoded. -/
def Obligations.StoreIsSeenByTheNextFetch : Prop :=
  (∀ (s : State) (v : Vm) (i : Instr) (op : Word → Word → Word) (a b dst : Mode) (x y : Word) (d : Nat),
    binaryForm i = some (op, a, b, dst) → s.Stepping v → v.mem.wf = true → rd v 1 a = .ok x → rd v 2 b = .ok y →
    destAddr v 3 dst = .ok d → v.ip + 4 ≤ 2 ^ 63 - 1 →
    ∃ v' : Vm, exec i s = .next (s.setVm v') ∧ v'.ip = v.ip + i.width ∧
      (∀ n : Nat, Vm.instrWord { v' with ip := n } =
        if n = d then op x y else Vm.instrWord { v with ip := n })) ∧
  (∀ (s : State) (v : Vm) (dst : Mode) (x : Word) (rest : List Word) (d : Nat),
    s.Stepping v → v.mem.wf = true → v.port.pending = x :: rest → destAddr v 1 dst = .ok d → v.ip + 2 ≤ 2 ^ 63 - 1 →
    ∃ v' : Vm, exec (.inp dst) s = .next (s.setVm v') ∧ v'.ip = v.ip + (Instr.inp dst).width ∧
      (∀ n : Nat, Vm.instrWord { v' with ip := n } =
        if n = d then x else Vm.instrWord { v with ip := n }))

/-- R187: no step changes a terminal VM; only its inbox may still grow. -/
def Obligations.TerminalStatesAreForEver : Prop :=
  ∀ (s t : State) (k : Nat) (v : Vm), step s = .next t → s.vms[k]? = some v → v.st ≠ .running →
    ∃ v' : Vm, t.vms[k]? = some v' ∧ v'.st = v.st ∧ v'.ip = v.ip ∧ v'.rb = v.rb ∧ v'.mem = v.mem ∧
      (v'.port = v.port ∨ ∃ x : Word, v'.port = v.port.addInput x)

/-- R161: only ARB changes a relative base; only Relative-mode parameters and ARB depend on it; it starts at 0. -/
def Obligations.RelativeBaseLaw : Prop :=
  (∀ (s t : State) (i : Instr), (∀ a, i ≠ .arb a) → exec i s = .next t →
    ∀ (k : Nat) (v : Vm), s.vms[k]? = some v → ∃ v' : Vm, t.vms[k]? = some v' ∧ v'.rb = v.rb) ∧
  (∀ (s t : State) (a : Mode), exec (.arb a) s = .next t →
    ∀ (k : Nat) (v : Vm), k ≠ s.cur → s.vms[k]? = some v → t.vms[k]? = some v) ∧
  (∀ (s t : State) (i : Instr) (r : Nat), noRelative i → (∀ a, i ≠ .arb a) → exec i s = .next t →
    exec i (s.withBase r) = .next (t.withBase r)) ∧
  (∀ (program phases : List Word) (initial : Word) (feedback : Bool) (s : State) (v : Vm),
    State.network program phases initial feedback = some s → v ∈ s.vms → v.rb = 0) ∧
  (∀ (mem : Memory) (q : QueuePort) (v : Vm), v ∈ (State.standalone mem q).vms → v.rb = 0)

/-- R201: a step of VM `k` changes VM `k` and, by OUT, what waits at its downstream VM, and nothing else; all VMs of a
network start from a copy of one Program. -/
def Obligations.StepTouchesItsVmAndDownstreamOnly : Prop :=
  (∀ (s t : State) (k : Nat), stepVm k s = .next t →
    t.vms.length = s.vms.length ∧ t.feedback = s.feedback ∧
    ∀ (j : Nat) (v u : Vm), s.vms[k]? = some v → s.vms[j]? = some u → j ≠ k →
      t.vms[j]? = some u ∨
        v.port.downstream = some j ∧ (∃ a, decode (v.mem.read v.ip) = .decoded (.out a)) ∧
          ∃ x : Word, t.vms[j]? = some { u with port := u.port.addInput x }) ∧
  (∀ (program phases : List Word) (initial : Word) (feedback : Bool) (s : State) (v : Vm),
    State.network program phases initial feedback = some s → v ∈ s.vms →
    v.mem = { tape := program, ext := [] })

/-! ## The scheduler and the channels -/

/-- R140: a send appends at the tail of the inbox and changes nothing else. That it does so whatever the run state of the
inbox's owner, an ended VM included, is R145's decision D15 (log entry 15). -/
def Obligations.SendAppendsToTheInbox : Prop :=
  ∀ (s : State) (j : Nat) (x : Word) (u : Vm) (c : ChannelPort), s.vms[j]? = some u → u.port = .channel c →
    ∃ t : State, s.send j x = some t ∧
      t.vms[j]? = some { u with port := .channel { c with inbox := c.inbox ++ [x] } } ∧
      (∀ k : Nat, k ≠ j → t.vms[k]? = s.vms[k]?) ∧ t.feedback = s.feedback ∧ t.cur = s.cur ∧ t.turn = s.turn

/-- R134, R138, R139, R147: both kinds of port are first in, first out: a word added behind others does not change which
one is taken next, and it is taken after all of them. -/
def Obligations.PortsAreFirstInFirstOut : Prop :=
  ∀ (p : Port) (x y : Word) (rest : List Word) (quiet : Bool), p.pending = x :: rest →
    ∃ p' : Port, (p.addInput y).takeInput quiet = .value x p' ∧ p'.pending = rest ++ [y] ∧
      p'.readOutput = p.readOutput ∧ p'.history = p.history ∧ p'.downstream = p.downstream

/-- R126, R141, R142: while some VM is enabled, a blocked VM has no step and is never the one chosen. That it does not time out
meanwhile is decision D14 (log entry 8). -/
def Obligations.BlockedVmHasNoStep : Prop :=
  ∀ (s : State) (k : Nat) (v : Vm), s.vms[k]? = some v → v.blocked = true → v.ip ≤ 2 ^ 63 - 1 →
    s.quiescent = false → stepVm k s = .fault .blocked ∧ s.chosen ≠ some k

/-- R205 (decision D14): in a quiescent network every blocked VM raises `InputStarvation(timed_out)` and nothing else
changes. -/
def Obligations.QuiescenceStarvesBlockedVms : Prop :=
  ∀ (s : State) (k : Nat) (v : Vm), s.vms[k]? = some v → v.blocked = true → v.ip ≤ 2 ^ 63 - 1 → s.quiescent = true →
    k ∈ s.candidates ∧
    stepVm k s = .next
      { s with
        cur := k
        vms := s.vms.set k
          { v with st := .faulted { fault := .inputStarvation .timedOut, ip := v.ip, word := v.mem.read v.ip } } }

/-- R12, R200, R202 to R205 (decisions D14, D21): which VMs may take the next step, whatever their number: every enabled VM,
and in a quiescent network every blocked one, and no other. Every step of the machine is such a step, and every such step is
the machine's step for some choice of the scheduler (`cur`, log entry 4). -/
def Obligations.EveryScheduleIsAllowed : Prop :=
  (∀ v : Vm,
    (v.blocked = true ↔ v.st = .running ∧ (∃ dst : Mode, decode (v.mem.read v.ip) = .decoded (.inp dst)) ∧
      ∃ c : ChannelPort, v.port = .channel c ∧ c.inbox = []) ∧
    (v.enabled = true ↔ v.st = .running ∧ v.blocked = false)) ∧
  (∀ s : State, s.quiescent = true ↔ ∀ v ∈ s.vms, v.enabled = false) ∧
  (∀ (s : State) (k : Nat), k ∈ s.candidates ↔
    ∃ v : Vm, s.vms[k]? = some v ∧ (v.enabled = true ∨ s.quiescent = true ∧ v.blocked = true)) ∧
  (∀ s u : State, NetStep s u ↔ ∃ k : Nat, k ∈ s.candidates ∧ stepVm k s = .next u) ∧
  (∀ s t : State, step s = .next t → ∃ u : State, NetStep s u ∧ t = u.reschedule) ∧
  (∀ s u : State, NetStep s u → ∃ c : Nat, step { s with cur := c } = .next u.reschedule) ∧
  (∀ (s : State) (k : Nat) (v : Vm), s.vms[k]? = some v → v.enabled = true →
    (∀ u : State, stepVm k s = .next u → ∃ c : Nat, step { s with cur := c } = .next u.reschedule) ∧
    (s.Inv → ∃ u : State, stepVm k s = .next u))

/-- R206, R187: the machine has no step exactly when every VM is terminal. -/
def Obligations.RunIsOverExactlyWhenAllAreTerminal : Prop :=
  ∀ s : State, step s = .fault .runOver ↔ ∀ v ∈ s.vms, v.st ≠ .running

/-- R202, R207: the steps of two enabled VMs commute, whichever is taken first. -/
def Obligations.EnabledStepsCommute : Prop :=
  ∀ (s : State) (i j : Nat) (v u : Vm), s.Inv → i ≠ j → s.vms[i]? = some v → s.vms[j]? = some u →
    v.enabled = true → u.enabled = true →
    ∃ t₁ t₂ u₁ u₂ : State, stepVm i s = .next t₁ ∧ stepVm j t₁ = .next t₂ ∧
      stepVm j s = .next u₁ ∧ stepVm i u₁ = .next u₂ ∧ t₂.vms = u₂.vms ∧ t₂.feedback = u₂.feedback

/-- R207, which the spec gives as general knowledge and a theorem to prove: "reaches the same final state of every VM, on
every schedule". It rests on starvation at quiescence only, decision D14 (log entry 8). -/
def Obligations.FinalStateIsTheSameOnEverySchedule : Prop :=
  ∀ s t u : State, s.Inv → Reaches s t → Reaches s u → t.over = true → u.over = true →
    t.vms = u.vms ∧ t.result = u.result

/-- R203 (decision D21), R180: in a weakly fair run that never ends every enabled VM gets its step: nothing but its own
step takes an enabled VM out of that condition. -/
def Obligations.EnabledVmIsEventuallyStepped : Prop :=
  ∀ (run : Nat → State) (who : Nat → Nat) (n k : Nat), InfiniteRun run who → WeaklyFair run who →
    (run n).enables k → ∃ m : Nat, n ≤ m ∧ who m = k

/-- R211, and R207, which the spec gives as general knowledge and a theorem to prove: `evaluate` has one result, whatever the
schedule. It rests on starvation at quiescence only, decision D14 (log entry 8). -/
def Obligations.EvaluateHasOneResult : Prop :=
  ∀ (program phases : List Word) (initial : Word) (feedback : Bool) (r r' : EvalResult),
    Evaluates program phases initial feedback r → Evaluates program phases initial feedback r' → r = r'

/-! ## Reset, boot and the invariant -/

/-- R231: the registers of every run start at `ip = 0`, `rb = 0`, `st = Running`. -/
def Obligations.RunsStartAtZeroRunning : Prop :=
  (∀ v ∈ State.reset.vms, v.ip = 0 ∧ v.rb = 0 ∧ v.st = .running) ∧
  (∀ (mem : Memory) (q : QueuePort), ∀ v ∈ (State.standalone mem q).vms, v.ip = 0 ∧ v.rb = 0 ∧ v.st = .running) ∧
  (∀ program inputs : List Word, ∀ v ∈ (State.boot program inputs).vms, v.ip = 0 ∧ v.rb = 0 ∧ v.st = .running) ∧
  (∀ (program phases : List Word) (initial : Word) (feedback : Bool) (s : State),
    State.network program phases initial feedback = some s → ∀ v ∈ s.vms, v.ip = 0 ∧ v.rb = 0 ∧ v.st = .running)

/-- R29, R35, R232 to R234 (decisions D11, D12, D26): a stand-alone run starts from the Program, the inputs in order, and
an empty output; reset is that run of the empty Program (which machine reset is: log entry 5). -/
def Obligations.StandaloneBootState : Prop :=
  (∀ program inputs : List Word, (State.boot program inputs).vms =
    [{ ip := 0, rb := 0, st := .running, mem := { tape := program, ext := [] }
       port := .queue { inFifo := inputs, lastOut := none, history := [] } }]) ∧
  State.reset = State.boot [] []

/-- R235, R30, R31 (the order of seeding is the spec's inference from S7; decisions D11, D12, D23): the network after its
boot: registers, Memory, seeded inboxes and topology of every VM; no VM is fed by two. -/
def Obligations.NetworkBootState : Prop :=
  (∀ (program : List Word) (initial : Word) (feedback : Bool), State.network program [] initial feedback = none) ∧
  ∀ (program phases : List Word) (initial : Word) (feedback : Bool), phases ≠ [] →
    ∃ s : State, State.network program phases initial feedback = some s ∧
      s.vms.length = phases.length ∧ s.feedback = feedback ∧
      (∀ (k : Nat) (p : Word), phases[k]? = some p → s.vms[k]? = some
        { ip := 0, rb := 0, st := .running, mem := { tape := program, ext := [] }
          port := .channel
            { inbox := if k = 0 then [p, initial] else [p], lastOut := none, history := []
              downstream := if k + 1 < phases.length then some (k + 1) else if feedback then some 0 else none } }) ∧
      (∀ (i j k : Nat) (v u : Vm), s.vms[i]? = some v → s.vms[j]? = some u →
        v.port.downstream = some k → u.port.downstream = some k → i = j)

/-- R36, R230, R237: a later run on the Memory an earlier one left reads the words that one wrote. That its port may be any,
one with outputs of an earlier run included, and is taken as it stands, is the model's choice (log entry 20). -/
def Obligations.LaterRunKeepsTheMemory : Prop :=
  ∀ (m : Memory) (a : Nat) (x : Word) (q : QueuePort), m.wf = true →
    ∃ v : Vm, (State.standalone (m.write a x) q).vms = [v] ∧ v.mem.read a = x ∧ v.ip = 0 ∧ v.rb = 0 ∧
      v.st = .running ∧ v.port = .queue q

/-- R214, R36, R27 (a): a stand-alone run that ends leaves one terminal VM with its Memory, whose `L` is the one it was
given, and its queue port, whose history has only grown and whose input has only been taken from the front. That the port may
hold outputs at the start, which the run keeps, is the model's choice (log entry 20). -/
def Obligations.RunLeavesMemoryAndPort : Prop :=
  ∀ (mem : Memory) (q : QueuePort) (t : State), Runs mem q t →
    ∃ (v : Vm) (q' : QueuePort) (taken written : List Word), t.vms = [v] ∧ v.st ≠ .running ∧ v.port = .queue q' ∧
      v.mem.tape.length = mem.tape.length ∧ q.inFifo = taken ++ q'.inFifo ∧ q'.history = q.history ++ written

/-- The invariant holds at reset (R21, R22, R27, R29, R31). -/
def Obligations.InvariantAtReset : Prop := State.reset.Inv

/-- The invariant holds after every boot (R232 to R235). That a stand-alone run may start with a port that holds outputs of an
earlier one is the model's choice (log entry 20). -/
def Obligations.InvariantAtBoot : Prop :=
  (∀ program inputs : List Word, (State.boot program inputs).Inv) ∧
  (∀ (mem : Memory) (q : QueuePort), mem.wf = true → q.lastOut = q.history.getLast? →
    (State.standalone mem q).Inv) ∧
  (∀ (program phases : List Word) (initial : Word) (feedback : Bool) (s : State),
    State.network program phases initial feedback = some s → s.Inv)

/-- Every step keeps the invariant: `ip` and `rb` stay in range (R21, R22), the Memory canonical with its keys in range
(R27), `last_out` the last of `history` (R29), the topology as wired (R31). -/
def Obligations.StepKeepsTheInvariant : Prop :=
  ∀ s t : State, s.Inv → step s = .next t → t.Inv

/-- R126, R203, R205, R206: from a state of the invariant in which some VM is `Running`, the machine has a next state: it
never stops but by every VM becoming terminal. That a deadlock steps to faults is decision D14 (log entry 8). -/
def Obligations.RunningMachineAlwaysSteps : Prop :=
  ∀ s : State, s.Inv → (∃ v ∈ s.vms, v.st = .running) → ∃ t : State, step s = .next t

/-! ## What the host reads -/

/-- R206, R210 to R212 (decisions D11, D19, D30): the result of a network. -/
def Obligations.EvaluateResultOrFailure : Prop :=
  ∀ s : State,
    ((∃ v ∈ s.vms, v.st = .running) → s.result = none) ∧
    ((∀ v ∈ s.vms, v.st ≠ .running) → (∃ (v : Vm) (r : FaultRecord), v ∈ s.vms ∧ v.st = .faulted r) →
      ∃ records : List (Nat × FaultRecord), s.result = some (.permutationEvaluationError records) ∧
        ∀ (k : Nat) (r : FaultRecord), (k, r) ∈ records ↔ ∃ v : Vm, s.vms[k]? = some v ∧ v.st = .faulted r) ∧
    (s.endedWell → ∀ v : Vm, s.vms.getLast? = some v →
      (∀ x : Word, v.port.readOutput = some x → s.result = some (.value x)) ∧
      (v.port.readOutput = none → s.result = some .noOutput))

/-- R213: the search keeps the first of the greatest results, and stops at the first failure with its error. -/
def Obligations.SearchKeepsTheFirstMaximum : Prop :=
  (∀ (runs : List (List Word × Word)) (best : List Word × Word),
    search (runs.map fun pr => (pr.1, .value pr.2)) = .ok (some best) →
    ∃ before after : List (List Word × Word), runs = before ++ best :: after ∧
      (∀ pr ∈ before, pr.2.toInt < best.2.toInt) ∧ (∀ pr ∈ after, pr.2.toInt ≤ best.2.toInt)) ∧
  (∀ runs : List (List Word × Word), runs ≠ [] →
    ∃ best : List Word × Word, search (runs.map fun pr => (pr.1, .value pr.2)) = .ok (some best)) ∧
  (∀ (runs : List (List Word × Word)) (p : List Word) (e : EvalResult) (rest : List (List Word × EvalResult)),
    (∀ x : Word, e ≠ .value x) → search ((runs.map fun pr => (pr.1, .value pr.2)) ++ (p, e) :: rest) = .error e)

/-- R213 (decision D20: the order of the permutations is open, so it holds for every enumeration): a search over the
permutations of the phase set, each evaluated on a fresh network, that answers a permutation answers the first one with the
greatest result, all of them evaluated; one that fails fails with the error of the first permutation whose evaluation
failed. -/
def Obligations.SearchMaximizesOverAllPermutations : Prop :=
  ∀ (program phaseSet : List Word) (initial : Word) (feedback : Bool) (order : List (List Word)),
    (∀ (p : List Word) (m : Word), Searches program phaseSet initial feedback order (.ok (some (p, m))) →
      p.Perm phaseSet ∧ Evaluates program p initial feedback (.value m) ∧
      (∀ q : List Word, q.Perm phaseSet →
        ∃ x : Word, Evaluates program q initial feedback (.value x) ∧ x.toInt ≤ m.toInt) ∧
      ∃ before after : List (List Word), order = before ++ p :: after ∧
        ∀ q ∈ before, ∃ x : Word, Evaluates program q initial feedback (.value x) ∧ x.toInt < m.toInt) ∧
    (∀ e : EvalResult, Searches program phaseSet initial feedback order (.error e) →
      (∀ x : Word, e ≠ .value x) ∧
      ∃ (before after : List (List Word)) (p : List Word), order = before ++ p :: after ∧
        Evaluates program p initial feedback e ∧
        ∀ q ∈ before, ∃ x : Word, Evaluates program q initial feedback (.value x)) ∧
    ¬ Searches program phaseSet initial feedback order (.ok none)

/-- R37, R210, R215 (decision D24): before the join, while some VM of the machine runs, the host sees nothing of any VM; after
it, of each VM its memory, `L`, `last_out` and `history`, and its record with the frozen `ip` and `rb` exactly when it is
`Faulted`. -/
def Obligations.ReportShowsWhatTheHostMayObserve : Prop :=
  ∀ (s : State) (k : Nat),
    ((∃ v ∈ s.vms, v.st = .running) → s.report k = none ∧ ∀ a : Nat, s.readMemory k a = none) ∧
    ((∀ v ∈ s.vms, v.st ≠ .running) → ∀ v : Vm, s.vms[k]? = some v →
      (∀ a : Nat, a ≤ 2 ^ 63 - 1 → s.readMemory k a = some (v.mem.read a)) ∧
      ∃ o : Report, s.report k = some o ∧
        o.tapeLength = v.mem.tape.length ∧ o.lastOut = v.port.readOutput ∧ o.history = v.port.history ∧
        ∀ (r : FaultRecord) (ip rb : Nat), o.fault = some (r, ip, rb) ↔ v.st = .faulted r ∧ ip = v.ip ∧ rb = v.rb)
end

