-- ==== Sys2Proof/Laws/Memory.lean ====
section
/-! SUPPORT. Laws/Memory.lean: the extension list reads as written and keeps its canonical form; every memory operation keeps
`Memory.wf`. -/

namespace Sys2Proof.Machine

theorem extRead_nil (a : Nat) : extRead [] a = 0 := rfl

theorem extWf_cons {lo a : Nat} {x : Word} {rest : List (Nat × Word)} :
    extWf lo ((a, x) :: rest) = true ↔ lo ≤ a ∧ a ≤ Config.addrMax ∧ x ≠ 0 ∧ extWf (a + 1) rest = true := by
  simp only [extWf, Bool.and_eq_true, decide_eq_true_eq, and_assoc]

/-- A list in canonical form from `hi` on is so from any lower bound on. -/
theorem extWf_mono {lo hi : Nat} (h : lo ≤ hi) : ∀ {l : List (Nat × Word)}, extWf hi l = true → extWf lo l = true
  | [], _ => rfl
  | (_, _) :: _, hw => by
    obtain ⟨h1, h2⟩ := extWf_cons.1 hw
    exact extWf_cons.2 ⟨by omega, h2⟩

/-- An address below a canonical list reads 0. -/
theorem extRead_below {lo a : Nat} (ha : a < lo) : ∀ {l : List (Nat × Word)}, extWf lo l = true → extRead l a = 0
  | [], _ => rfl
  | (b, _) :: rest, hw => by
    obtain ⟨h1, -, -, h4⟩ := extWf_cons.1 hw
    rw [extRead, if_neg (by omega), extRead_below (lo := b + 1) (by omega) h4]

/-- A write leaves every other address of the extension alone, in any list. -/
theorem extRead_extWrite_ne {a b : Nat} (x : Word) (h : b ≠ a) :
    ∀ l : List (Nat × Word), extRead (extWrite l a x) b = extRead l b
  | [] => by
    rw [extWrite]; split
    · rfl
    · simp [extRead, h]
  | (c, y) :: rest => by
    have ih := extRead_extWrite_ne x h rest
    rw [extWrite]; split
    · split
      · rfl
      · simp [extRead, h]
    · split
      · subst a; split <;> simp [extRead, h]
      · simp only [extRead, ih]

/-- A write to a canonical list reads back. -/
theorem extRead_extWrite_self {a : Nat} (x : Word) :
    ∀ {lo : Nat} {l : List (Nat × Word)}, extWf lo l = true → extRead (extWrite l a x) a = x
  | _, [], _ => by
    rw [extWrite]; split
    · simp_all [extRead]
    · simp [extRead]
  | lo, (c, y) :: rest, hw => by
    obtain ⟨h1, h2, h3, h4⟩ := extWf_cons.1 hw
    rw [extWrite]; split
    · next hlt =>
      split
      · next h0 =>
        rw [h0, extRead, if_neg (by omega), extRead_below (lo := c + 1) (by omega) h4]
      · simp [extRead]
    · split
      · next heq =>
        subst heq
        split
        · next h0 => rw [h0, extRead_below (lo := a + 1) (by omega) h4]
        · simp [extRead]
      · next hne =>
        rw [extRead, if_neg hne, extRead_extWrite_self x h4]

/-- A write within the bounds keeps the canonical form. -/
theorem extWf_extWrite {a : Nat} {x : Word} (ha : a ≤ Config.addrMax) :
    ∀ {lo : Nat} {l : List (Nat × Word)}, lo ≤ a → extWf lo l = true → extWf lo (extWrite l a x) = true
  | _, [], hlo, _ => by
    rw [extWrite]; split
    · rfl
    · next h0 => exact extWf_cons.2 ⟨hlo, ha, h0, rfl⟩
  | lo, (c, y) :: rest, hlo, hw => by
    obtain ⟨h1, h2, h3, h4⟩ := extWf_cons.1 hw
    rw [extWrite]; split
    · next hlt =>
      split
      · exact hw
      · next h0 => exact extWf_cons.2 ⟨hlo, ha, h0, extWf_cons.2 ⟨by omega, h2, h3, h4⟩⟩
    · split
      · next heq =>
        subst heq
        split
        · exact extWf_mono (by omega) h4
        · next h0 => exact extWf_cons.2 ⟨hlo, ha, h0, h4⟩
      · exact extWf_cons.2 ⟨h1, h2, h3, extWf_extWrite ha (by omega) h4⟩

@[simp] theorem Memory.write_length (m : Memory) (a : Nat) (x : Word) :
    (m.write a x).tape.length = m.tape.length := by
  unfold Memory.write; split <;> simp

/-- A write leaves every other address alone, in any Memory. -/
theorem Memory.read_write_ne (m : Memory) {a b : Nat} (x : Word) (h : b ≠ a) :
    (m.write a x).read b = m.read b := by
  unfold Memory.write Memory.read
  by_cases ha : a < m.tape.length <;> by_cases hb : b < m.tape.length <;>
    simp [ha, hb, extRead_extWrite_ne x h, Ne.symm h]

/-- Writing at a valid address keeps the canonical form. -/
theorem Memory.write_wf {m : Memory} {a : Nat} {x : Word} (ha : a ≤ Config.addrMax) (h : m.wf = true) :
    (m.write a x).wf = true := by
  unfold Memory.write
  split
  · simpa [Memory.wf] using h
  · next hl => exact extWf_extWrite ha (Nat.le_of_not_lt hl) h

theorem Memory.empty_wf : Memory.empty.wf = true := rfl

theorem Memory.ofProgram_wf (program : List Word) : (Memory.ofProgram program).wf = true := rfl

/-- Placing an instruction keeps the canonical form. -/
theorem Memory.place_wf {m : Memory} (ip : Nat) (word : Nat → Word) (h : m.wf = true) :
    (m.place ip word).wf = true := by
  have hstep : ∀ (ks : List Nat) (m : Memory), m.wf = true →
      (ks.foldl (fun m k => if ip + k ≤ Config.addrMax then m.write (ip + k) (word k) else m) m).wf = true := by
    intro ks
    induction ks with
    | nil => exact fun _ hm => hm
    | cons k ks ih =>
      intro m hm
      rw [List.foldl_cons]
      apply ih
      split
      · next hk => exact Memory.write_wf hk hm
      · exact hm
  exact hstep _ _ h

end Sys2Proof.Machine
end

