-- ==== Sys2Proof/Laws/State.lean ====
section
/-! SUPPORT. Laws/State.lean: one lemma per field and update of the state, true by rfl. -/

namespace Sys2Proof.Machine

section Machine

variable (s : State) (v : Vm) (k : Nat) (f : Vm → Vm)

@[simp] theorem State.select_vms : (s.select k).vms = s.vms := rfl
@[simp] theorem State.select_feedback : (s.select k).feedback = s.feedback := rfl
@[simp] theorem State.select_cur : (s.select k).cur = k := rfl
@[simp] theorem State.select_turn : (s.select k).turn = s.turn := rfl

@[simp] theorem State.setVm_vms : (s.setVm v).vms = s.vms.set s.cur v := rfl
@[simp] theorem State.setVm_feedback : (s.setVm v).feedback = s.feedback := rfl
@[simp] theorem State.setVm_cur : (s.setVm v).cur = s.cur := rfl
@[simp] theorem State.setVm_turn : (s.setVm v).turn = s.turn := rfl

@[simp] theorem State.modifyVm_vms : (s.modifyVm f).vms = s.vms.modify s.cur f := rfl
@[simp] theorem State.modifyVm_feedback : (s.modifyVm f).feedback = s.feedback := rfl
@[simp] theorem State.modifyVm_cur : (s.modifyVm f).cur = s.cur := rfl
@[simp] theorem State.modifyVm_turn : (s.modifyVm f).turn = s.turn := rfl

@[simp] theorem State.reschedule_vms : s.reschedule.vms = s.vms := rfl
@[simp] theorem State.reschedule_feedback : s.reschedule.feedback = s.feedback := rfl
@[simp] theorem State.reschedule_cur : s.reschedule.cur = Config.schedule s.turn := rfl
@[simp] theorem State.reschedule_turn : s.reschedule.turn = s.turn + 1 := rfl

@[simp] theorem State.select_quiescent : (s.select k).quiescent = s.quiescent := rfl
@[simp] theorem State.select_candidates : (s.select k).candidates = s.candidates := rfl

end Machine

section Raising

variable (v : Vm) (w : Word) (f : VmFault)

@[simp] theorem Vm.raise_ip : (v.raise w f).ip = v.ip := rfl
@[simp] theorem Vm.raise_rb : (v.raise w f).rb = v.rb := rfl
@[simp] theorem Vm.raise_mem : (v.raise w f).mem = v.mem := rfl
@[simp] theorem Vm.raise_port : (v.raise w f).port = v.port := rfl
@[simp] theorem Vm.raise_st : (v.raise w f).st = .faulted { fault := f, ip := v.ip, word := w } := rfl

@[simp] theorem RunState.isRunning_iff (st : RunState) : st.isRunning = true ↔ st = .running := by
  cases st <;> simp [RunState.isRunning]

end Raising

section Ports

variable (p : Port) (x : Word)

@[simp] theorem Port.addInput_pending : (p.addInput x).pending = p.pending ++ [x] := by cases p <;> rfl
@[simp] theorem Port.addInput_readOutput : (p.addInput x).readOutput = p.readOutput := by cases p <;> rfl
@[simp] theorem Port.addInput_history : (p.addInput x).history = p.history := by cases p <;> rfl
@[simp] theorem Port.addInput_downstream : (p.addInput x).downstream = p.downstream := by cases p <;> rfl
@[simp] theorem Port.addInput_waiting : (p.addInput x).waiting = false := by
  cases p <;> simp [Port.addInput, Port.waiting]

@[simp] theorem Port.record_pending : (p.record x).pending = p.pending := by cases p <;> rfl
@[simp] theorem Port.record_readOutput : (p.record x).readOutput = some x := by cases p <;> rfl
@[simp] theorem Port.record_history : (p.record x).history = p.history ++ [x] := by cases p <;> rfl
@[simp] theorem Port.record_downstream : (p.record x).downstream = p.downstream := by cases p <;> rfl
@[simp] theorem Port.record_waiting : (p.record x).waiting = p.waiting := by cases p <;> rfl

/-- Sending to a port and recording on it commute. -/
theorem Port.record_addInput (y : Word) : (p.addInput y).record x = (p.record x).addInput y := by cases p <;> rfl

end Ports

end Sys2Proof.Machine
end

