-- ==== Sys2Proof/Laws/Ops.lean ====
section
/-! SUPPORT. Laws/Ops.lean: for each shared operation, once, everything it can do. -/

namespace Sys2Proof.Machine

/-! ## Addresses and parameters -/

theorem checkAddr_ok {a : Int} {n : Nat} : checkAddr a = .ok n ↔ a = (n : Int) ∧ n ≤ Config.addrMax := by
  unfold checkAddr
  constructor
  · intro h
    split at h
    · next hr =>
      obtain ⟨h0, h1⟩ := hr
      cases h
      constructor <;> omega
    · cases h
  · rintro ⟨rfl, h⟩
    rw [if_pos ⟨by omega, by omega⟩]
    simp

theorem checkAddr_error {a : Int} {f : VmFault} :
    checkAddr a = .error f ↔ (a < 0 ∨ (Config.addrMax : Int) < a) ∧ f = .addressRangeFault a := by
  unfold checkAddr
  constructor
  · intro h
    split at h
    · cases h
    · next hr => cases h; exact ⟨by omega, rfl⟩
  · rintro ⟨h, rfl⟩
    rw [if_neg (by omega)]

theorem memRead_ok {m : Memory} {a : Int} {x : Word} :
    memRead m a = .ok x ↔ ∃ n : Nat, a = (n : Int) ∧ n ≤ Config.addrMax ∧ m.read n = x := by
  unfold memRead
  constructor
  · intro h
    split at h
    · next n hn =>
      obtain ⟨h1, h2⟩ := checkAddr_ok.1 hn
      cases h
      exact ⟨n, h1, h2, rfl⟩
    · cases h
  · rintro ⟨n, h1, h2, rfl⟩
    rw [checkAddr_ok.2 ⟨h1, h2⟩]

theorem memRead_error {m : Memory} {a : Int} {f : VmFault} :
    memRead m a = .error f ↔ (a < 0 ∨ (Config.addrMax : Int) < a) ∧ f = .addressRangeFault a := by
  rw [← checkAddr_error]
  unfold memRead
  cases checkAddr a <;> simp

/-- `MemRead` at a natural-number address in range. -/
theorem memRead_nat {m : Memory} {n : Nat} (h : n ≤ Config.addrMax) : memRead m n = .ok (m.read n) :=
  memRead_ok.2 ⟨n, rfl, h, rfl⟩

/-- The address `destAddr` answers is a valid one. -/
theorem destAddr_le {v : Vm} {k : Nat} {m : Mode} {d : Nat} (h : destAddr v k m = .ok d) : d ≤ Config.addrMax := by
  unfold destAddr at h
  repeat' split at h
  · cases h
  · cases h
  · exact (checkAddr_ok.1 h).2
  · cases h
  · exact (checkAddr_ok.1 h).2

theorem wr_ok {v : Vm} {k : Nat} {m : Mode} {x : Word} {mem : Memory} :
    wr v k m x = .ok mem ↔ ∃ d, destAddr v k m = .ok d ∧ mem = v.mem.write d x := by
  unfold wr
  cases destAddr v k m <;> simp [eq_comm]

theorem wr_error {v : Vm} {k : Nat} {m : Mode} {x : Word} {f : VmFault} :
    wr v k m x = .error f ↔ destAddr v k m = .error f := by
  unfold wr
  cases destAddr v k m <;> simp

/-! ## One VM -/

/-- `orRaise` either goes on or raises the fault. -/
theorem Vm.orRaise_cases {α : Type} (v : Vm) (w : Word) (r : Except VmFault α) (k : α → Vm) :
    (∃ x, r = .ok x ∧ v.orRaise w r k = k x) ∨ (∃ f, r = .error f ∧ v.orRaise w r k = v.raise w f) := by
  cases r with
  | ok x => exact .inl ⟨x, rfl, rfl⟩
  | error f => exact .inr ⟨f, rfl, rfl⟩

/-- `set_ip(t)` either writes `ip` or raises `AddressRangeFault(t)`. -/
theorem Vm.setIp_cases (v : Vm) (w : Word) (t : Int) :
    (∃ n : Nat, t = n ∧ n ≤ Config.addrMax ∧ v.setIp w t = { v with ip := n }) ∨
    ((t < 0 ∨ (Config.addrMax : Int) < t) ∧ v.setIp w t = v.raise w (.addressRangeFault t)) := by
  obtain ⟨n, h, he⟩ | ⟨f, h, he⟩ := v.orRaise_cases w (checkAddr t) fun a => { v with ip := a }
  · obtain ⟨h1, h2⟩ := checkAddr_ok.1 h
    exact .inl ⟨n, h1, h2, he⟩
  · obtain ⟨h1, rfl⟩ := checkAddr_error.1 h
    exact .inr ⟨h1, he⟩

/-- An advance either moves `ip` on by the width or raises the fault at the top of the address space. -/
theorem Vm.advance_cases (v : Vm) (w : Word) (width : Nat) :
    (v.ip + width ≤ Config.addrMax ∧ v.advance w width = { v with ip := v.ip + width }) ∨
    (Config.addrMax < v.ip + width ∧ v.advance w width = v.raise w (.addressRangeFault (v.ip + width))) := by
  obtain ⟨n, h1, h2, h3⟩ | ⟨h1, h2⟩ := v.setIp_cases w ((v.ip : Int) + width)
  · obtain rfl : n = v.ip + width := by omega
    exact .inl ⟨h2, h3⟩
  · exact .inr ⟨by omega, h2⟩

/-- Everything ADD, MUL, LT and EQ can make of a VM. -/
theorem binary_cases (op : Word → Word → Word) (a b dst : Mode) (v : Vm) :
    (∃ f, (rd v 1 a = .error f ∨ (∃ x, rd v 1 a = .ok x ∧ rd v 2 b = .error f) ∨
        (∃ x y, rd v 1 a = .ok x ∧ rd v 2 b = .ok y ∧ destAddr v 3 dst = .error f)) ∧
      binary op a b dst v = v.raise v.instrWord f) ∨
    (∃ x y d, rd v 1 a = .ok x ∧ rd v 2 b = .ok y ∧ destAddr v 3 dst = .ok d ∧
      ((v.ip + 4 ≤ Config.addrMax ∧
          binary op a b dst v = { v with mem := v.mem.write d (op x y), ip := v.ip + 4 }) ∨
       (Config.addrMax < v.ip + 4 ∧ binary op a b dst v =
          Vm.raise { v with mem := v.mem.write d (op x y) } v.instrWord (.addressRangeFault (v.ip + 4))))) := by
  unfold binary
  cases ha : rd v 1 a with
  | error f => exact .inl ⟨f, .inl rfl, rfl⟩
  | ok x =>
    cases hb : rd v 2 b with
    | error f => exact .inl ⟨f, .inr (.inl ⟨x, rfl, rfl⟩), rfl⟩
    | ok y =>
      cases hd : destAddr v 3 dst with
      | error f =>
        refine .inl ⟨f, .inr (.inr ⟨x, y, rfl, rfl, rfl⟩), ?_⟩
        simp only [Vm.orRaise, wr_error.2 hd]
      | ok d =>
        refine .inr ⟨x, y, d, rfl, rfl, rfl, ?_⟩
        simp only [Vm.orRaise, wr_ok.2 ⟨d, hd, rfl⟩]
        exact Vm.advance_cases { v with mem := v.mem.write d (op x y) } v.instrWord 4

/-- Everything JNZ and JZ can make of a VM. -/
theorem jumpIf_cases (test : Word → Bool) (a target : Mode) (v : Vm) :
    (∃ f, jumpIf test a target v = v.raise v.instrWord f) ∨
    (∃ x t n, rd v 1 a = .ok x ∧ rd v 2 target = .ok t ∧ n ≤ Config.addrMax ∧
      (test x = true ∧ t.toInt = (n : Int) ∨ test x = false ∧ n = v.ip + 3) ∧
      jumpIf test a target v = { v with ip := n }) := by
  unfold jumpIf
  cases ha : rd v 1 a with
  | error f => exact .inl ⟨f, rfl⟩
  | ok x =>
    cases hb : rd v 2 target with
    | error f => exact .inl ⟨f, rfl⟩
    | ok t =>
      cases hx : test x with
      | true =>
        simp only [Vm.orRaise, hx, if_true]
        obtain ⟨n, h1, h2, h3⟩ | ⟨-, h2⟩ := v.setIp_cases v.instrWord t.toInt
        · exact .inr ⟨x, t, n, rfl, rfl, h2, .inl ⟨hx, h1⟩, h3⟩
        · exact .inl ⟨_, h2⟩
      | false =>
        simp only [Vm.orRaise, hx, Bool.false_eq_true, if_false]
        obtain ⟨h1, h2⟩ | ⟨-, h2⟩ := v.advance_cases v.instrWord 3
        · exact .inr ⟨x, t, v.ip + 3, rfl, rfl, h1, .inr ⟨hx, rfl⟩, h2⟩
        · exact .inl ⟨_, h2⟩

/-- Everything ARB can make of a VM. -/
theorem adjustBase_cases (a : Mode) (v : Vm) :
    (∃ f, adjustBase a v = v.raise v.instrWord f) ∨
    (∃ (x : Word) (r : Nat), rd v 1 a = .ok x ∧ (v.rb : Int) + x.toInt = r ∧ r ≤ Config.addrMax ∧
      ((v.ip + 2 ≤ Config.addrMax ∧ adjustBase a v = { v with rb := r, ip := v.ip + 2 }) ∨
       (Config.addrMax < v.ip + 2 ∧
        adjustBase a v = Vm.raise { v with rb := r } v.instrWord (.addressRangeFault (v.ip + 2))))) := by
  unfold adjustBase
  cases ha : rd v 1 a with
  | error f => exact .inl ⟨f, rfl⟩
  | ok x =>
    cases hr : checkAddr ((v.rb : Int) + x.toInt) with
    | error f =>
      refine .inl ⟨f, ?_⟩
      simp only [Vm.orRaise, hr]
    | ok r =>
      obtain ⟨h1, h2⟩ := checkAddr_ok.1 hr
      refine .inr ⟨x, r, rfl, h1, h2, ?_⟩
      simp only [Vm.orRaise, hr]
      exact Vm.advance_cases { v with rb := r } v.instrWord 2

/-- Everything IN can make of a VM once it has its input. -/
theorem storeInput_cases (dst : Mode) (x : Word) (p : Port) (v : Vm) :
    (∃ f, destAddr v 1 dst = .error f ∧ storeInput dst x p v = Vm.raise { v with port := p } v.instrWord f) ∨
    (∃ d, destAddr v 1 dst = .ok d ∧
      ((v.ip + 2 ≤ Config.addrMax ∧
          storeInput dst x p v = { v with port := p, mem := v.mem.write d x, ip := v.ip + 2 }) ∨
       (Config.addrMax < v.ip + 2 ∧ storeInput dst x p v =
          Vm.raise { v with port := p, mem := v.mem.write d x } v.instrWord (.addressRangeFault (v.ip + 2))))) := by
  unfold storeInput
  cases hd : destAddr v 1 dst with
  | error f => exact .inl ⟨f, rfl, by simp only [Vm.orRaise, wr_error.2 hd]⟩
  | ok d =>
    refine .inr ⟨d, rfl, ?_⟩
    simp only [Vm.orRaise, wr_ok.2 ⟨d, hd, rfl⟩]
    exact Vm.advance_cases { v with port := p, mem := v.mem.write d x } v.instrWord 2

/-- What taking an input can come to, for either kind of port. -/
theorem Port.takeInput_cases (p : Port) (quiet : Bool) :
    (∃ x p', p.takeInput quiet = .value x p' ∧ p.pending = x :: p'.pending ∧ p'.readOutput = p.readOutput ∧
      p'.history = p.history ∧ p'.downstream = p.downstream) ∨
    (p.pending = [] ∧ p.waiting = false ∧ p.takeInput quiet = .starved .queueEmpty) ∨
    (p.pending = [] ∧ p.waiting = true ∧
      p.takeInput quiet = if quiet then .starved .timedOut else .wait) := by
  cases p with
  | queue q =>
    cases h : q.inFifo with
    | nil => exact .inr (.inl ⟨h, rfl, by simp [Port.takeInput, h]⟩)
    | cons x rest => exact .inl ⟨x, .queue { q with inFifo := rest }, by simp [Port.takeInput, h], h, rfl, rfl, rfl⟩
  | channel c =>
    cases h : c.inbox with
    | nil => exact .inr (.inr ⟨h, by simp [Port.waiting, h], by simp [Port.takeInput, h]⟩)
    | cons x rest => exact .inl ⟨x, .channel { c with inbox := rest }, by simp [Port.takeInput, h], h, rfl, rfl, rfl⟩

/-! ## The stepping VM -/

theorem State.Stepping.get {s : State} {v : Vm} (h : s.Stepping v) : s.vms[s.cur]? = some v := h.1

theorem State.Stepping.running {s : State} {v : Vm} (h : s.Stepping v) : v.st = .running := h.2

theorem State.Stepping.lt {s : State} {v : Vm} (h : s.Stepping v) : s.cur < s.vms.length :=
  (List.getElem?_eq_some_iff.1 h.1).1

/-- On the stepping VM the body runs. -/
theorem onRunning_eq {s : State} {v : Vm} (h : s.Stepping v) (body : Vm → Result) : onRunning s body = body v := by
  simp [onRunning, h.1, h.2, RunState.isRunning]

theorem onVm_eq {s : State} {v : Vm} (h : s.Stepping v) (f : Vm → Vm) : onVm s f = .next (s.setVm (f v)) :=
  onRunning_eq h _

/-- A body that answered a next state ran on the stepping VM. -/
theorem onRunning_next {s t : State} {body : Vm → Result} (h : onRunning s body = .next t) :
    ∃ v, s.Stepping v ∧ body v = .next t := by
  unfold onRunning at h
  split at h
  · cases h
  · next v hv =>
    split at h
    · next hr => exact ⟨v, ⟨hv, (RunState.isRunning_iff _).1 hr⟩, h⟩
    · cases h

theorem onVm_next {s t : State} {f : Vm → Vm} (h : onVm s f = .next t) : ∃ v, s.Stepping v ∧ t = s.setVm (f v) := by
  obtain ⟨v, hv, h⟩ := onRunning_next h
  cases h
  exact ⟨v, hv, rfl⟩

@[simp] theorem State.setVm_get {s : State} {v u : Vm} (h : s.Stepping v) : (s.setVm u).vms[s.cur]? = some u := by
  simp [h.lt]

@[simp] theorem State.setVm_get_ne {s : State} {u : Vm} {k : Nat} (h : k ≠ s.cur) :
    (s.setVm u).vms[k]? = s.vms[k]? := by
  simp [Ne.symm h]

/-- Modifying an element that is there sets it. -/
theorem modify_eq_set {l : List Vm} {k : Nat} {v : Vm} (h : l[k]? = some v) (f : Vm → Vm) :
    l.modify k f = l.set k (f v) := by
  obtain ⟨hk, rfl⟩ := List.getElem?_eq_some_iff.1 h
  apply List.ext_getElem?
  intro j
  rw [List.getElem?_modify, List.getElem?_set]
  by_cases hj : k = j
  · subst hj
    simp [hk]
  · simp [hj]

/-- Changing the stepping VM replaces it. -/
theorem State.modifyVm_eq {s : State} {v : Vm} (h : s.vms[s.cur]? = some v) (f : Vm → Vm) :
    s.modifyVm f = s.setVm (f v) := by
  simp only [State.modifyVm, State.setVm, modify_eq_set h]

/-! ## Sending -/

theorem State.send_some {s t : State} {j : Nat} {x : Word} :
    s.send j x = some t ↔ j < s.vms.length ∧
      t = { s with vms := s.vms.modify j fun v => { v with port := v.port.addInput x } } := by
  unfold State.send
  split
  · next hj => simp [hj, eq_comm]
  · next hj => simp only [hj, reduceCtorEq, false_and]

/-- The port of a VM after it has written `x`: recorded, and, in a ring of one, with `x` waiting as well. -/
def Port.written (p : Port) (own : Nat) (x : Word) : Port :=
  if p.downstream = some own then (p.record x).addInput x else p.record x

@[simp] theorem Port.written_downstream (p : Port) (own : Nat) (x : Word) :
    (p.written own x).downstream = p.downstream := by
  unfold Port.written; split <;> simp

@[simp] theorem Port.written_readOutput (p : Port) (own : Nat) (x : Word) :
    (p.written own x).readOutput = some x := by
  unfold Port.written; split <;> simp

@[simp] theorem Port.written_history (p : Port) (own : Nat) (x : Word) :
    (p.written own x).history = p.history ++ [x] := by
  unfold Port.written; split <;> simp

/-- The machine after `write_output`: the sender has recorded the word, and the VM it feeds, if any, has one more word
waiting. -/
theorem State.writeOutput_some {s t : State} {v : Vm} {x : Word} (hv : s.Stepping v)
    (h : s.writeOutput v x = some t) :
    t.feedback = s.feedback ∧ t.cur = s.cur ∧ t.turn = s.turn ∧ t.vms.length = s.vms.length ∧
    t.vms[s.cur]? = some { v with port := v.port.written s.cur x } ∧
    (∀ k u, k ≠ s.cur → s.vms[k]? = some u → t.vms[k]? =
      some (if v.port.downstream = some k then { u with port := u.port.addInput x } else u)) := by
  unfold State.writeOutput at h
  have hown := State.setVm_get (u := { v with port := v.port.record x }) hv
  cases hd : v.port.downstream with
  | none =>
    simp only [hd] at h
    cases h
    refine ⟨rfl, rfl, rfl, by simp, ?_, fun k u hk hu => ?_⟩
    · rw [hown]; simp [Port.written, hd]
    · rw [State.setVm_get_ne hk, hu]; simp
  | some j =>
    simp only [hd] at h
    obtain ⟨-, rfl⟩ := State.send_some.1 h
    refine ⟨rfl, rfl, rfl, by simp, ?_, fun k u hk hu => ?_⟩
    · simp only [List.getElem?_modify, hown, Port.written, hd, Option.some.injEq]
      by_cases hj : j = s.cur <;> simp [hj]
    · simp only [List.getElem?_modify, State.setVm_get_ne hk, hu, Option.some.injEq]
      by_cases hj : j = k <;> simp [hj]

/-- `write_output` succeeds wherever the VM it sends to exists. -/
theorem State.writeOutput_isSome {s : State} {v : Vm} (x : Word)
    (h : ∀ j, v.port.downstream = some j → j < s.vms.length) : ∃ t, s.writeOutput v x = some t := by
  unfold State.writeOutput
  cases hd : v.port.downstream with
  | none => exact ⟨_, rfl⟩
  | some j => exact ⟨_, State.send_some.2 ⟨by simpa using h j hd, rfl⟩⟩

/-! ## The scheduler -/

theorem State.mem_indices {s : State} {p : Vm → Bool} {k : Nat} :
    k ∈ s.indices p ↔ ∃ v, s.vms[k]? = some v ∧ p v = true := by
  unfold State.indices
  rw [List.mem_filter, List.mem_range]
  constructor
  · rintro ⟨hk, hp⟩
    rw [List.getElem?_eq_getElem hk] at hp ⊢
    exact ⟨_, rfl, by simpa using hp⟩
  · rintro ⟨v, hv, hp⟩
    exact ⟨(List.getElem?_eq_some_iff.1 hv).1, by simp [hv, hp]⟩

theorem State.quiescent_iff {s : State} : s.quiescent = true ↔ ∀ v ∈ s.vms, v.enabled = false := by
  simp [State.quiescent]

/-- A candidate is an enabled VM, or a blocked VM of a quiescent network. -/
theorem State.mem_candidates {s : State} {k : Nat} :
    k ∈ s.candidates ↔ ∃ v, s.vms[k]? = some v ∧
      (v.enabled = true ∨ s.quiescent = true ∧ v.blocked = true) := by
  unfold State.candidates
  cases hq : s.quiescent with
  | true =>
    simp only [if_true, State.mem_indices, true_and]
    constructor
    · rintro ⟨v, hv, hb⟩
      exact ⟨v, hv, .inr hb⟩
    · rintro ⟨v, hv, he | hb⟩
      · rw [State.quiescent_iff.1 hq v (List.mem_of_getElem? hv)] at he
        cases he
      · exact ⟨v, hv, hb⟩
  | false => simp [State.mem_indices]

/-- The scheduler picks a candidate whenever there is one. -/
theorem pick_none {cur : Nat} {ks : List Nat} : pick cur ks = none ↔ ks = [] := by
  match ks with
  | [] => simp [pick]
  | [k] => simp [pick]
  | k :: l :: rest =>
    simp only [pick, reduceCtorEq, iff_false]
    split
    · simp
    · rw [List.getElem?_eq_getElem (Nat.mod_lt _ (by simp))]
      simp

theorem pick_mem {cur k : Nat} {ks : List Nat} (h : pick cur ks = some k) : k ∈ ks := by
  match ks with
  | [] => simp [pick] at h
  | [l] => simp_all [pick]
  | l :: m :: rest =>
    simp only [pick] at h
    split at h
    · next hc => cases h; simpa using hc
    · exact List.mem_of_getElem? h

/-- A candidate that `cur` names is the one picked. -/
theorem pick_self {k : Nat} {ks : List Nat} (h : k ∈ ks) : pick k ks = some k := by
  match ks with
  | [] => cases h
  | [l] => simp_all [pick]
  | l :: m :: rest => simp [pick, h]

theorem State.chosen_mem {s : State} {k : Nat} (h : s.chosen = some k) : k ∈ s.candidates := pick_mem h

/-- What a network step that answers a next state did. -/
theorem networkStep_next {one : Nat → State → Result} {s t : State} (h : networkStep one s = .next t) :
    ∃ k u, s.chosen = some k ∧ one k s = .next u ∧ t = u.reschedule := by
  unfold networkStep at h
  split at h
  · cases h
  · next k hk =>
    split at h
    · next u hu => cases h; exact ⟨k, u, hk, hu, rfl⟩
    · cases h
    · cases h

/-- What the step of one VM that answers a next state did: it ran the decoded instruction, or raised a decode fault. -/
theorem fetchAndRun_next {run : Instr → State → Result} {s t : State} (h : fetchAndRun run s = .next t) :
    ∃ v, s.Stepping v ∧ v.ip ≤ Config.addrMax ∧
      ((∃ i, decode v.instrWord = .decoded i ∧ run i s = .next t) ∨
       (decode v.instrWord = .decodeError ∧ t = s.setVm (v.raise v.instrWord .decodeError)) ∨
       (decode v.instrWord = .unknownOpcode ∧ t = s.setVm (v.raise v.instrWord .unknownOpcode))) := by
  obtain ⟨v, hv, h⟩ := onRunning_next h
  refine ⟨v, hv, ?_⟩
  cases hr : memRead v.mem v.ip with
  | error f => simp [hr] at h
  | ok w =>
    obtain ⟨n, h1, h2, rfl⟩ := memRead_ok.1 hr
    obtain rfl : v.ip = n := by omega
    refine ⟨h2, ?_⟩
    simp only [hr] at h
    change (match decode v.instrWord with
      | .decoded i => run i s
      | .decodeError => .next (s.setVm (v.raise v.instrWord .decodeError))
      | .unknownOpcode => .next (s.setVm (v.raise v.instrWord .unknownOpcode))) = .next t at h
    cases hd : decode v.instrWord with
    | decoded i => rw [hd] at h; exact .inl ⟨i, rfl, h⟩
    | decodeError => rw [hd] at h; cases h; exact .inr (.inl ⟨rfl, rfl⟩)
    | unknownOpcode => rw [hd] at h; cases h; exact .inr (.inr ⟨rfl, rfl⟩)

/-! ## IN and OUT -/

/-- Everything IN can do when it answers a next state. -/
theorem execIn_next {s t : State} {dst : Mode} (h : execIn dst s = .next t) :
    ∃ v, s.Stepping v ∧
      ((∃ x p, v.port.takeInput s.quiescent = .value x p ∧ t = s.setVm (storeInput dst x p v)) ∨
       (∃ why, v.port.takeInput s.quiescent = .starved why ∧
          t = s.setVm (v.raise v.instrWord (.inputStarvation why)))) := by
  obtain ⟨v, hv, h⟩ := onRunning_next h
  refine ⟨v, hv, ?_⟩
  split at h
  · next x p hp => cases h; exact .inl ⟨x, p, hp, rfl⟩
  · next why hp => cases h; exact .inr ⟨why, hp, rfl⟩
  · cases h

/-- Everything OUT can do when it answers a next state: raise the fault of its operand, or write the word (the VM `u`
has it recorded), advance, and append the word at the VM it feeds. -/
theorem execOut_next {s t : State} {a : Mode} (h : execOut a s = .next t) :
    ∃ v, s.Stepping v ∧
      ((∃ f, rd v 1 a = .error f ∧ t = s.setVm (v.raise v.instrWord f)) ∨
       (∃ x, rd v 1 a = .ok x ∧ t.feedback = s.feedback ∧ t.cur = s.cur ∧ t.turn = s.turn ∧
          t.vms.length = s.vms.length ∧
          t.vms[s.cur]? = some (Vm.advance { v with port := v.port.written s.cur x } v.instrWord 2) ∧
          (∀ k u, k ≠ s.cur → s.vms[k]? = some u → t.vms[k]? =
            some (if v.port.downstream = some k then { u with port := u.port.addInput x } else u)))) := by
  obtain ⟨v, hv, h⟩ := onRunning_next h
  refine ⟨v, hv, ?_⟩
  split at h
  · next f hf => cases h; exact .inl ⟨f, hf, rfl⟩
  · next x hx =>
    split at h
    · next s1 hs =>
      cases h
      obtain ⟨hfb, hcur, hturn, hlen, hown, hothers⟩ := State.writeOutput_some hv hs
      refine .inr ⟨x, hx, hfb, hcur, hturn, by simp [hlen], ?_, fun k u hk hu => ?_⟩
      · simp [hcur, hown]
      · simp [hcur, Ne.symm hk, hothers k u hk hu]
    · cases h

/-- OUT answers a next state wherever the VM it sends to exists. -/
theorem execOut_isNext {s : State} {v : Vm} (a : Mode) (hv : s.Stepping v)
    (h : ∀ j, v.port.downstream = some j → j < s.vms.length) : ∃ t, execOut a s = .next t := by
  rw [execOut, onRunning_eq hv]
  cases rd v 1 a with
  | error f => exact ⟨_, rfl⟩
  | ok x =>
    obtain ⟨s1, hs⟩ := State.writeOutput_isSome (s := s) x h
    exact ⟨_, by simp only [hs]; rfl⟩

end Sys2Proof.Machine
end

