-- ==== Sys2Proof/Laws/Exec.lean ====
section
/-! SUPPORT. Laws/Exec.lean: once, everything an instruction can do to the stepping VM and to the others, and the step of one VM
around it. -/

namespace Sys2Proof.Machine

/-- Everything instruction `i` can do to the stepping VM, one field at a time. -/
structure Changes (i : Instr) (v v' : Vm) : Prop where
  ip : v'.ip = v.ip ∨ v'.ip ≤ Config.addrMax
  rb : v'.rb = v.rb ∨ (∃ a, i = .arb a) ∧ v'.rb ≤ Config.addrMax
  mem : v'.mem = v.mem ∨ ∃ d x, d ≤ Config.addrMax ∧ v'.mem = v.mem.write d x
  port : v'.port = v.port ∨ (∃ quiet x, v.port.takeInput quiet = .value x v'.port) ∨
    (∃ x, v'.port = v.port.record x) ∨ ∃ x, v'.port = (v.port.record x).addInput x
  halted : v'.st = .halted → i = .hlt
  faulted : ∀ r, v'.st = .faulted r → v'.ip = v.ip ∧ r.ip = v.ip ∧ r.word = v.instrWord

/-- Everything a step of the VM that `s.cur` names can do to the machine: that VM changes by `change`, its downstream
VM may get one more input from an OUT, and nothing else changes. -/
structure Touches (sends : Prop) (change : Vm → Vm → Prop) (s t : State) (v v' : Vm) : Prop where
  stepping : s.Stepping v
  feedback : t.feedback = s.feedback
  cur : t.cur = s.cur
  turn : t.turn = s.turn
  length : t.vms.length = s.vms.length
  own : t.vms[s.cur]? = some v'
  change : change v v'
  others : ∀ (k : Nat) (u : Vm), k ≠ s.cur → s.vms[k]? = some u →
    t.vms[k]? = some u ∨ sends ∧ v.port.downstream = some k ∧
      ∃ x : Word, t.vms[k]? = some { u with port := u.port.addInput x }

/-- The four instructions of format F3 are `binary` on the stepping VM. -/
theorem exec_binary {i : Instr} {op : Word → Word → Word} {a b dst : Mode} (h : binaryForm i = some (op, a, b, dst))
    (s : State) : exec i s = onVm s (binary op a b dst) := by
  cases i <;> simp only [binaryForm, Option.some.injEq, Prod.mk.injEq, reduceCtorEq] at h <;>
    obtain ⟨rfl, rfl, rfl, rfl⟩ := h <;> rfl

/-- The two jumps are `jumpIf` on the stepping VM. -/
theorem exec_jump {i : Instr} {test : Word → Bool} {a target : Mode} (h : jumpForm i = some (test, a, target))
    (s : State) : exec i s = onVm s (jumpIf test a target) := by
  cases i <;> simp only [jumpForm, Option.some.injEq, Prod.mk.injEq, reduceCtorEq] at h <;>
    obtain ⟨rfl, rfl, rfl⟩ := h <;> rfl

/-- Raising a fault is a change any instruction can make. -/
theorem Changes.raise (i : Instr) (v v' : Vm) (f : VmFault) (h : Changes i v v') (hip : v'.ip = v.ip) :
    Changes i v (v'.raise v.instrWord f) where
  ip := .inl hip
  rb := h.rb
  mem := h.mem
  port := h.port
  halted := nofun
  faulted := by
    rintro r hr
    cases hr
    exact ⟨hip, hip, rfl⟩

/-- An unchanged, running VM. -/
theorem Changes.same (i : Instr) {v : Vm} (h : v.st = .running) : Changes i v v where
  ip := .inl rfl
  rb := .inl rfl
  mem := .inl rfl
  port := .inl rfl
  halted := fun h' => by rw [h] at h'; cases h'
  faulted := fun _ h' => by rw [h] at h'; cases h'

theorem Touches.setVm {change : Vm → Vm → Prop} {sends : Prop} {s : State} {v v' : Vm} (hs : s.Stepping v)
    (h : change v v') : Touches sends change s (s.setVm v') v v' where
  stepping := hs
  feedback := rfl
  cur := rfl
  turn := rfl
  length := by simp
  own := State.setVm_get hs
  change := h
  others := fun k u hk hu => .inl (by rw [State.setVm_get_ne hk, hu])

theorem Changes.binary (i : Instr) (op : Word → Word → Word) (a b dst : Mode) {v : Vm} (h : v.st = .running) :
    Changes i v (Machine.binary op a b dst v) := by
  obtain ⟨f, -, he⟩ | ⟨x, y, d, -, -, hd, ⟨hip, he⟩ | ⟨-, he⟩⟩ := binary_cases op a b dst v
  · rw [he]; exact (Changes.same i h).raise i v v f rfl
  · rw [he]
    exact
      { ip := .inr hip, rb := .inl rfl, mem := .inr ⟨d, op x y, destAddr_le hd, rfl⟩, port := .inl rfl
        halted := (Changes.same i h).halted
        faulted := fun _ h' => by rw [h] at h'; cases h' }
  · rw [he]
    refine Changes.raise i v _ _ ?_ rfl
    exact
      { ip := .inl rfl, rb := .inl rfl, mem := .inr ⟨d, op x y, destAddr_le hd, rfl⟩, port := .inl rfl
        halted := (Changes.same i h).halted
        faulted := fun _ h' => by rw [h] at h'; cases h' }

theorem Changes.jumpIf (i : Instr) (test : Word → Bool) (a target : Mode) {v : Vm} (h : v.st = .running) :
    Changes i v (Machine.jumpIf test a target v) := by
  obtain ⟨f, he⟩ | ⟨x, t, n, -, -, hn, -, he⟩ := jumpIf_cases test a target v
  · rw [he]; exact (Changes.same i h).raise i v v f rfl
  · rw [he]
    exact
      { ip := .inr hn, rb := .inl rfl, mem := .inl rfl, port := .inl rfl
        halted := (Changes.same i h).halted
        faulted := fun _ h' => by rw [h] at h'; cases h' }

theorem Changes.adjustBase (a : Mode) {v : Vm} (h : v.st = .running) :
    Changes (.arb a) v (Machine.adjustBase a v) := by
  obtain ⟨f, he⟩ | ⟨x, r, -, -, hr, ⟨hip, he⟩ | ⟨-, he⟩⟩ := adjustBase_cases a v
  · rw [he]; exact (Changes.same _ h).raise _ v v f rfl
  · rw [he]
    exact
      { ip := .inr hip, rb := .inr ⟨⟨a, rfl⟩, hr⟩, mem := .inl rfl, port := .inl rfl
        halted := (Changes.same (.arb a) h).halted
        faulted := fun _ h' => by rw [h] at h'; cases h' }
  · rw [he]
    refine Changes.raise _ v _ _ ?_ rfl
    exact
      { ip := .inl rfl, rb := .inr ⟨⟨a, rfl⟩, hr⟩, mem := .inl rfl, port := .inl rfl
        halted := (Changes.same (.arb a) h).halted
        faulted := fun _ h' => by rw [h] at h'; cases h' }

theorem Changes.storeInput (dst : Mode) {quiet : Bool} {x : Word} {p : Port} {v : Vm} (h : v.st = .running)
    (hp : v.port.takeInput quiet = .value x p) : Changes (.inp dst) v (Machine.storeInput dst x p v) := by
  have hport : (p = v.port ∨ (∃ q x, v.port.takeInput q = .value x p) ∨ (∃ x, p = v.port.record x) ∨
      ∃ x, p = (v.port.record x).addInput x) := .inr (.inl ⟨quiet, x, hp⟩)
  obtain ⟨f, -, he⟩ | ⟨d, hd, ⟨hip, he⟩ | ⟨-, he⟩⟩ := storeInput_cases dst x p v
  · rw [he]
    refine Changes.raise _ v _ _ ?_ rfl
    exact
      { ip := .inl rfl, rb := .inl rfl, mem := .inl rfl, port := hport
        halted := (Changes.same (.inp dst) h).halted
        faulted := fun _ h' => by rw [h] at h'; cases h' }
  · rw [he]
    exact
      { ip := .inr hip, rb := .inl rfl, mem := .inr ⟨d, x, destAddr_le hd, rfl⟩, port := hport
        halted := (Changes.same (.inp dst) h).halted
        faulted := fun _ h' => by rw [h] at h'; cases h' }
  · rw [he]
    refine Changes.raise _ v _ _ ?_ rfl
    exact
      { ip := .inl rfl, rb := .inl rfl, mem := .inr ⟨d, x, destAddr_le hd, rfl⟩, port := hport
        halted := (Changes.same (.inp dst) h).halted
        faulted := fun _ h' => by rw [h] at h'; cases h' }

theorem Changes.advance {i : Instr} {v u : Vm} (width : Nat) (h : Changes i v u) (hip : u.ip = v.ip)
    (hst : u.st = .running) : Changes i v (u.advance v.instrWord width) := by
  obtain ⟨hn, he⟩ | ⟨-, he⟩ := u.advance_cases v.instrWord width
  · rw [he]
    exact
      { ip := .inr hn, rb := h.rb, mem := h.mem, port := h.port
        halted := fun h' => by rw [hst] at h'; cases h'
        faulted := fun _ h' => by rw [hst] at h'; cases h' }
  · rw [he]; exact h.raise i v u _ hip

/-- Everything `exec` can do when it answers a next state. -/
theorem exec_next {i : Instr} {s t : State} (h : exec i s = .next t) :
    ∃ v v', Touches (∃ a, i = .out a) (Changes i) s t v v' := by
  have hplain : ∀ f : Vm → Vm, onVm s f = .next t → (∀ v : Vm, v.st = .running → Changes i v (f v)) →
      ∃ v v', Touches (∃ a, i = .out a) (Changes i) s t v v' := by
    intro f hf hc
    obtain ⟨v, hv, rfl⟩ := onVm_next hf
    exact ⟨v, f v, Touches.setVm hv (hc v hv.2)⟩
  cases i with
  | add a b dst => exact hplain _ h fun v => Changes.binary _ _ a b dst
  | mul a b dst => exact hplain _ h fun v => Changes.binary _ _ a b dst
  | lt a b dst => exact hplain _ h fun v => Changes.binary _ _ a b dst
  | eq a b dst => exact hplain _ h fun v => Changes.binary _ _ a b dst
  | jnz a target => exact hplain _ h fun v => Changes.jumpIf _ _ a target
  | jz a target => exact hplain _ h fun v => Changes.jumpIf _ _ a target
  | arb a => exact hplain _ h fun v => Changes.adjustBase a
  | hlt =>
    refine hplain _ h fun v hr => ?_
    exact { ip := .inl rfl, rb := .inl rfl, mem := .inl rfl, port := .inl rfl, halted := fun _ => rfl, faulted := nofun }
  | inp dst =>
    obtain ⟨v, hv, ⟨x, p, hp, rfl⟩ | ⟨why, -, rfl⟩⟩ := execIn_next h
    · exact ⟨v, _, Touches.setVm hv (Changes.storeInput dst hv.2 hp)⟩
    · exact ⟨v, _, Touches.setVm hv ((Changes.same _ hv.2).raise _ v v _ rfl)⟩
  | out a =>
    obtain ⟨v, hv, ⟨f, -, rfl⟩ | ⟨x, -, hfb, hcur, hturn, hlen, hown, hothers⟩⟩ := execOut_next h
    · exact ⟨v, _, Touches.setVm hv ((Changes.same _ hv.2).raise _ v v _ rfl)⟩
    · have hport : Changes (.out a) v { v with port := v.port.written s.cur x } :=
        { Changes.same (.out a) hv.2 with
          port := by
            unfold Port.written
            split
            · exact .inr (.inr (.inr ⟨x, rfl⟩))
            · exact .inr (.inr (.inl ⟨x, rfl⟩)) }
      refine ⟨v, Vm.advance { v with port := v.port.written s.cur x } v.instrWord 2, ?_⟩
      exact
        { stepping := hv, feedback := hfb, cur := hcur, turn := hturn, length := hlen, own := hown
          change := hport.advance 2 rfl hv.2
          others := by
            intro k u hk hu
            rw [hothers k u hk hu]
            by_cases hd : v.port.downstream = some k
            · rw [if_pos hd]; exact .inr ⟨⟨a, rfl⟩, hd, x, rfl⟩
            · rw [if_neg hd]; exact .inl rfl }

/-- What the step of VM `k` can do when it answers a next state: an instruction's effect, or a decode fault. -/
theorem stepVm_next {k : Nat} {s t : State} (h : stepVm k s = .next t) :
    ∃ v v', v.ip ≤ Config.addrMax ∧
      ((∃ i, decode v.instrWord = .decoded i ∧ exec i (s.select k) = .next t ∧
          Touches (∃ a, i = .out a) (Changes i) (s.select k) t v v') ∨
       (∃ f, (decode v.instrWord = .decodeError ∧ f = .decodeError ∨
            decode v.instrWord = .unknownOpcode ∧ f = .unknownOpcode) ∧
          v' = v.raise v.instrWord f ∧ (s.select k).Stepping v ∧ t = (s.select k).setVm v')) := by
  obtain ⟨v, hv, hip, ⟨i, hd, he⟩ | ⟨hd, rfl⟩ | ⟨hd, rfl⟩⟩ := fetchAndRun_next h
  · obtain ⟨v1, v', ht⟩ := exec_next he
    obtain rfl : v = v1 := Option.some.inj (hv.1.symm.trans ht.stepping.1)
    exact ⟨v, v', hip, .inl ⟨i, hd, he, ht⟩⟩
  · exact ⟨v, _, hip, .inr ⟨_, .inl ⟨hd, rfl⟩, rfl, hv, rfl⟩⟩
  · exact ⟨v, _, hip, .inr ⟨_, .inr ⟨hd, rfl⟩, rfl, hv, rfl⟩⟩

/-- A run may be taken apart at its first step as well. -/
theorem Reaches.head {s t u : State} (first : NetStep s t) (after : Reaches t u) : Reaches s u := by
  induction after with
  | refl => exact .tail .refl first
  | tail _ last ih => exact .tail ih last

end Sys2Proof.Machine
end

