-- ==== Sys2Proof/Laws/Invoke.lean ====
section
/-! SUPPORT. Laws/Invoke.lean: when a run is over, which fault records it leaves, and the two shapes a list of evaluations has for the
search. -/

namespace Sys2Proof.Machine

theorem State.over_iff {s : State} : s.over = true ↔ ∀ v ∈ s.vms, v.st ≠ .running := by
  simp [State.over, Bool.eq_false_iff]

theorem RunState.record?_iff {st : RunState} {r : FaultRecord} : st.record? = some r ↔ st = .faulted r := by
  cases st <;> simp [RunState.record?]

theorem State.mem_faultRecords {s : State} {k : Nat} {r : FaultRecord} :
    (k, r) ∈ s.faultRecords ↔ ∃ v, s.vms[k]? = some v ∧ v.st = .faulted r := by
  simp only [State.faultRecords, List.mem_filterMap, List.mem_range, Option.map_eq_some_iff,
    Option.bind_eq_some_iff]
  constructor
  · rintro ⟨a, -, b, ⟨v, hv, hb⟩, e⟩
    cases e
    exact ⟨v, hv, RunState.record?_iff.1 hb⟩
  · rintro ⟨v, hv, h⟩
    exact ⟨k, (List.getElem?_eq_some_iff.1 hv).1, r, ⟨v, hv, RunState.record?_iff.2 h⟩, rfl⟩

/-- Before the join there is nothing to see. -/
theorem State.report_of_not_over {s : State} (h : s.over = false) (k : Nat) : s.report k = none := by
  simp [State.report, h]

theorem State.report_of_over {s : State} (h : s.over = true) (k : Nat) :
    s.report k = (s.vms[k]?).map Vm.report := by
  simp [State.report, h]

/-- A list of evaluations gives values only, or values up to a first failure. -/
theorem evaluations_cases (evaluations : List (List Word × EvalResult)) :
    (∃ runs : List (List Word × Word), evaluations = runs.map fun pr => (pr.1, .value pr.2)) ∨
    ∃ (runs : List (List Word × Word)) (p : List Word) (e : EvalResult) (rest : List (List Word × EvalResult)),
      (∀ x, e ≠ .value x) ∧ evaluations = (runs.map fun pr => (pr.1, .value pr.2)) ++ (p, e) :: rest := by
  induction evaluations with
  | nil => exact .inl ⟨[], rfl⟩
  | cons a l ih =>
    obtain ⟨p, e⟩ := a
    by_cases he : ∃ x, e = .value x
    · obtain ⟨x, rfl⟩ := he
      obtain ⟨r, rfl⟩ | ⟨r, q, e, rest, he, rfl⟩ := ih
      · exact .inl ⟨(p, x) :: r, rfl⟩
      · exact .inr ⟨(p, x) :: r, q, e, rest, he, rfl⟩
    · exact .inr ⟨[], p, e, l, fun x h => he ⟨x, h⟩, rfl⟩

end Sys2Proof.Machine
end

