-- ==== Sys2Proof/Laws/Local.lean ====
section
/-! SUPPORT. Laws/Local.lean: the step of an enabled VM is a function of that VM alone, followed by the delivery of what it sent.
This is what two steps of different VMs commute by. -/

namespace Sys2Proof.Machine

theorem Vm.blocked_iff {v : Vm} :
    v.blocked = true ↔ v.st = .running ∧ (∃ dst, decode v.instrWord = .decoded (.inp dst)) ∧ v.port.waiting = true := by
  simp only [Vm.blocked, Bool.and_eq_true, RunState.isRunning_iff, and_assoc, Vm.nextIsIn]
  refine and_congr_right fun _ => and_congr_left fun _ => ?_
  split <;> simp_all

/-- The fetch at a valid `ip` never faults: the step is a case distinction on the decoded word (42_control.md R126). -/
theorem fetchAndRun_eq {run : Instr → State → Result} {s : State} {v : Vm} (hs : s.Stepping v)
    (hip : v.ip ≤ Config.addrMax) :
    fetchAndRun run s =
      match decode v.instrWord with
      | .decoded i => run i s
      | .decodeError => .next (s.setVm (v.raise v.instrWord .decodeError))
      | .unknownOpcode => .next (s.setVm (v.raise v.instrWord .unknownOpcode)) := by
  rw [fetchAndRun, onRunning_eq hs, memRead_nat hip]; rfl

/-- What an instruction makes of an unblocked VM itself, and the word it sends on. -/
def Vm.runOwn (v : Vm) (i : Instr) : Vm × Option Word :=
  match i with
  | .add a b dst => (binary addValue a b dst v, none)
  | .mul a b dst => (binary mulValue a b dst v, none)
  | .inp dst =>
    match v.port.takeInput false with
    | .value x p => (storeInput dst x p v, none)
    | .starved why => (v.raise v.instrWord (.inputStarvation why), none)
    | .wait => (v, none)
  | .out a =>
    match rd v 1 a with
    | .error f => (v.raise v.instrWord f, none)
    | .ok x => (Vm.advance { v with port := v.port.record x } v.instrWord 2, some x)
  | .jnz a target => (jumpIf nonZero a target v, none)
  | .jz a target => (jumpIf isZero a target v, none)
  | .lt a b dst => (binary ltValue a b dst v, none)
  | .eq a b dst => (binary eqValue a b dst v, none)
  | .arb a => (adjustBase a v, none)
  | .hlt => ({ v with st := .halted }, none)

/-- What a step makes of an enabled VM itself, and the word it sends on. -/
def Vm.stepOwn (v : Vm) : Vm × Option Word :=
  match decode v.instrWord with
  | .decodeError => (v.raise v.instrWord .decodeError, none)
  | .unknownOpcode => (v.raise v.instrWord .unknownOpcode, none)
  | .decoded i => v.runOwn i

/-- Deliver what a step sent to the downstream VM. -/
def deliver (vms : List Vm) : Option Nat → Option Word → List Vm
  | some j, some x => vms.modify j fun u => { u with port := u.port.addInput x }
  | some _, none => vms
  | none, _ => vms

theorem deliver_comm (l : List Vm) {d1 d2 : Option Nat} {x1 x2 : Option Word}
    (h : ∀ m1 m2, d1 = some m1 → d2 = some m2 → m1 ≠ m2) :
    deliver (deliver l d1 x1) d2 x2 = deliver (deliver l d2 x2) d1 x1 := by
  cases d1 <;> cases d2 <;> cases x1 <;> cases x2 <;> try rfl
  next m1 m2 y1 y2 =>
  have hne := h m1 m2 rfl rfl
  apply List.ext_getElem?
  intro k
  simp only [deliver, List.getElem?_modify]
  by_cases h1 : m1 = k
  · have : m2 ≠ k := fun h => hne (h1.trans h.symm)
    simp [h1, this]
  · simp [h1]

/-- The same VM with another port. -/
def Vm.withPort (v : Vm) (p : Port) : Vm := { v with port := p }

/-! What touches no port commutes with replacing it. -/

theorem orRaise_withPort {α : Type} {v : Vm} {w : Word} {e : Except VmFault α} {k k' : α → Vm} {p : Port}
    (h : ∀ x, (k x).withPort p = k' x) :
    (v.orRaise w e k).withPort p = (v.withPort p).orRaise w e k' := by
  cases e with
  | error f => rfl
  | ok x => exact h x

theorem advance_withPort (v : Vm) (w n p) : (v.advance w n).withPort p = (v.withPort p).advance w n :=
  orRaise_withPort fun _ => rfl

theorem advance_port (v : Vm) (w n) : (v.advance w n).port = v.port := by
  unfold Vm.advance Vm.setIp Vm.orRaise; split <;> rfl

theorem advance_add (v : Vm) (w n) (x : Word) :
    Vm.advance { v with port := v.port.addInput x } w n =
      { v.advance w n with port := (v.advance w n).port.addInput x } := by
  rw [advance_port]; exact (advance_withPort v w n _).symm

theorem binary_withPort (op a b dst) (v : Vm) (p) :
    (binary op a b dst v).withPort p = binary op a b dst (v.withPort p) :=
  orRaise_withPort fun _ => orRaise_withPort fun _ => orRaise_withPort fun _ => advance_withPort ..

theorem jumpIf_withPort (op a b) (v : Vm) (p) : (jumpIf op a b v).withPort p = jumpIf op a b (v.withPort p) :=
  orRaise_withPort fun _ => orRaise_withPort fun _ => by
    split
    · exact orRaise_withPort fun _ => rfl
    · exact advance_withPort ..

theorem adjustBase_withPort (a) (v : Vm) (p) : (adjustBase a v).withPort p = adjustBase a (v.withPort p) :=
  orRaise_withPort fun _ => orRaise_withPort fun _ => advance_withPort ..

/-- The effect of an instruction on the machine is `runOwn` on the stepping VM and the delivery of what it sent. -/
theorem exec_runOwn {i : Instr} {s : State} {v : Vm} (hs : s.Stepping v)
    (hin : ∀ dst, i = .inp dst → v.port.waiting = false)
    (hout : ∀ j, v.port.downstream = some j → j < s.vms.length) :
    exec i s = .next { s with vms := deliver (s.vms.set s.cur (v.runOwn i).1) v.port.downstream (v.runOwn i).2 } := by
  have pl : ∀ u : Vm, s.setVm u = { s with vms := deliver (s.vms.set s.cur u) v.port.downstream none } := by
    intro u; cases v.port.downstream <;> rfl
  cases i with
  | inp dst =>
    show execIn _ _ = _
    rw [execIn, onRunning_eq hs]
    obtain ⟨x, p, h1, h2, -⟩ | ⟨-, -, h⟩ | ⟨-, hw, -⟩ := v.port.takeInput_cases s.quiescent
    · have h2 : v.port.takeInput false = .value x p := by
        revert h1
        cases hp : v.port with
        | queue q => exact id
        | channel c => cases hc : c.inbox <;> simp [Port.takeInput, hc]; split <;> simp
      simp only [h1, Vm.runOwn, h2, pl]
    · have h2 : v.port.takeInput false = .starved .queueEmpty := by
        revert h
        cases hp : v.port with
        | queue q => exact id
        | channel c => cases hc : c.inbox <;> simp [Port.takeInput, hc]; split <;> simp
      simp only [h, Vm.runOwn, h2, pl]
    · rw [hin dst rfl] at hw; cases hw
  | out a =>
    show execOut _ _ = _
    rw [execOut, onRunning_eq hs]
    simp only [Vm.runOwn]
    cases hr : rd v 1 a with
    | error f => simp only [pl]
    | ok x =>
      simp only [State.writeOutput]
      cases hd : v.port.downstream with
      | none =>
        simp only [deliver]
        congr 1
        rw [State.modifyVm_eq (v := { v with port := v.port.record x }) (by exact State.setVm_get hs)]
        simp [State.setVm]
      | some j =>
        have hj := hout j hd
        simp only [State.send, State.setVm, List.length_set, hj, if_true, deliver]
        congr 1
        simp only [State.modifyVm]
        congr 1
        apply List.ext_getElem?
        intro k
        simp only [List.getElem?_modify, List.getElem?_set]
        by_cases h1 : s.cur = k <;> by_cases h2 : j = k
        · subst h1; subst h2; simp [hs.lt]; exact advance_add { v with port := v.port.record x } _ _ x
        · subst h1; simp [h2, hs.lt]
        · simp [h1, h2]
        · simp [h1, h2]
  | _ => exact (onVm_eq hs _).trans (congrArg _ (pl _))

theorem Vm.enabled_iff {v : Vm} :
    v.enabled = true ↔ v.st = .running ∧ ∀ dst, decode v.instrWord = .decoded (.inp dst) → v.port.waiting = false := by
  rw [Vm.enabled, Bool.and_eq_true, Bool.not_eq_true', RunState.isRunning_iff, Bool.eq_false_iff, ne_eq, Vm.blocked_iff]
  constructor
  · rintro ⟨h1, h2⟩
    refine ⟨h1, fun d hd => ?_⟩
    rw [Bool.eq_false_iff]; exact fun hw => h2 ⟨h1, ⟨d, hd⟩, hw⟩
  · rintro ⟨h1, h2⟩
    refine ⟨h1, fun ⟨_, ⟨d, hd⟩, hw⟩ => ?_⟩
    rw [h2 d hd] at hw; cases hw

/-- The step of an enabled VM is `stepOwn` on it and the delivery of what it sent. -/
theorem stepVm_own {k : Nat} {s : State} {v : Vm} (hv : s.vms[k]? = some v) (he : v.enabled = true)
    (hip : v.ip ≤ Config.addrMax) (hout : ∀ j, v.port.downstream = some j → j < s.vms.length) :
    stepVm k s =
      .next { s with cur := k, vms := deliver (s.vms.set k v.stepOwn.1) v.port.downstream v.stepOwn.2 } := by
  obtain ⟨hr, hin⟩ := Vm.enabled_iff.1 he
  have hs : (s.select k).Stepping v := ⟨hv, hr⟩
  have pl : ∀ u : Vm, (s.select k).setVm u =
      { s with cur := k, vms := deliver (s.vms.set k u) v.port.downstream none } := by
    intro u; cases v.port.downstream <;> rfl
  show fetchAndRun exec _ = _
  rw [fetchAndRun_eq hs hip]
  unfold Vm.stepOwn
  cases hd : decode v.instrWord with
  | decodeError => simp only [pl]
  | unknownOpcode => simp only [pl]
  | decoded i => exact exec_runOwn hs (fun d h => hin d (h ▸ hd)) hout

/-- A word added behind a waiting one does not change which is taken next. -/
theorem takeInput_add {p p' : Port} {q x y} (h : p.takeInput q = .value x p') :
    (p.addInput y).takeInput q = .value x (p'.addInput y) := by
  cases p with
  | queue r =>
    cases hr : r.inFifo <;> simp [Port.takeInput, hr] at h
    obtain ⟨rfl, rfl⟩ := h; simp [Port.addInput, Port.takeInput, hr]
  | channel r =>
    cases hr : r.inbox with
    | nil => simp [Port.takeInput, hr] at h; split at h <;> cases h
    | cons z l =>
      simp [Port.takeInput, hr] at h
      obtain ⟨rfl, rfl⟩ := h; simp [Port.addInput, Port.takeInput, hr]

theorem plain_add {f : Vm → Vm} (hp : ∀ v p, (f v).withPort p = f (v.withPort p)) (v : Vm) (y : Word) :
    f { v with port := v.port.addInput y } = { f v with port := (f v).port.addInput y } := by
  have h : ((f v).withPort v.port).port = (f (v.withPort v.port)).port := congrArg Vm.port (hp v v.port)
  have hport : v.port = (f v).port := h
  rw [← hport]; exact (hp v _).symm

theorem storeInput_port (d x p) (v : Vm) : (storeInput d x p v).port = p := by
  unfold storeInput Vm.orRaise; split
  · rw [advance_port]
  · rfl

/-- An instruction does the same with one more word waiting behind the others. -/
theorem runOwn_add {v : Vm} {i : Instr} {y : Word} (h : ∀ d, i = .inp d → v.port.pending ≠ []) :
    Vm.runOwn { v with port := v.port.addInput y } i =
      ({ (v.runOwn i).1 with port := (v.runOwn i).1.port.addInput y }, (v.runOwn i).2) := by
  cases i with
  | add a b d => exact congrArg (·, none) (plain_add (binary_withPort _ a b d) v y)
  | mul a b d => exact congrArg (·, none) (plain_add (binary_withPort _ a b d) v y)
  | lt a b d => exact congrArg (·, none) (plain_add (binary_withPort _ a b d) v y)
  | eq a b d => exact congrArg (·, none) (plain_add (binary_withPort _ a b d) v y)
  | jnz a b => exact congrArg (·, none) (plain_add (jumpIf_withPort _ a b) v y)
  | jz a b => exact congrArg (·, none) (plain_add (jumpIf_withPort _ a b) v y)
  | arb a => exact congrArg (·, none) (plain_add (adjustBase_withPort a) v y)
  | hlt => rfl
  | inp d =>
    obtain ⟨x, p, h1, h2, -⟩ | ⟨h0, -⟩ | ⟨h0, -⟩ := v.port.takeInput_cases false
    · simp only [Vm.runOwn, h1, takeInput_add h1, storeInput_port]
      congr 1
      unfold storeInput
      exact (orRaise_withPort (v := { v with port := p }) fun m =>
        advance_withPort { v with port := p, mem := m } v.instrWord 2 (p.addInput y)).symm
    · exact absurd h0 (h d rfl)
    · exact absurd h0 (h d rfl)
  | out a =>
    simp only [Vm.runOwn]
    rw [show rd { v with port := v.port.addInput y } 1 a = rd v 1 a by cases a <;> rfl]
    cases hr : rd v 1 a with
    | error f => rfl
    | ok x =>
      simp only [Port.record_addInput]
      congr 1
      exact advance_add { v with port := v.port.record x } _ _ y

/-- An enabled VM stays enabled when a word arrives. -/
theorem enabled_add {v : Vm} {y : Word} (h : v.enabled = true) :
    Vm.enabled { v with port := v.port.addInput y } = true := by
  rw [Vm.enabled_iff] at h ⊢
  refine ⟨h.1, fun d hd => ?_⟩
  cases hp : v.port <;> simp [Port.addInput, Port.waiting]

/-- The step of an enabled VM of a network is the same before and after a word arrives. -/
theorem stepOwn_add {v : Vm} {y : Word} (he : v.enabled = true) (hc : ∃ c, v.port = .channel c) :
    Vm.stepOwn { v with port := v.port.addInput y } =
      ({ v.stepOwn.1 with port := v.stepOwn.1.port.addInput y }, v.stepOwn.2) := by
  unfold Vm.stepOwn
  have e : Vm.instrWord { v with port := v.port.addInput y } = v.instrWord := rfl
  rw [e]
  cases hd : decode v.instrWord with
  | decodeError => rfl
  | unknownOpcode => rfl
  | decoded i =>
    refine runOwn_add fun d h => ?_
    obtain ⟨c, hc⟩ := hc
    have := (Vm.enabled_iff.1 he).2 d (h ▸ hd)
    rw [hc] at this ⊢
    intro h0
    simp only [Port.pending] at h0
    simp [Port.waiting, h0] at this

end Sys2Proof.Machine
end

