-- ==== Sys2Proof/Laws/PerInstr.lean ====
section
/-! SUPPORT. Laws/PerInstr.lean: the family `EncodedWord`, one lemma per constructor of `Instr`. -/

namespace Sys2Proof.Laws.EncodedWord

/-- The canonical word of an instruction lies in `0 .. 99999` and its two low digits are the opcode (30_encoding.md R71,
R73, R90). -/
def Statement (i : Instr) : Prop :=
  0 ≤ (encode i).toInt ∧ (encode i).toInt ≤ 99999 ∧ (encode i).toInt % 100 = i.opcode

theorem add (a b dst : Mode) : Statement (.add a b dst) := by
  cases a <;> cases b <;> cases dst <;> (unfold Statement; decide)

theorem mul (a b dst : Mode) : Statement (.mul a b dst) := by
  cases a <;> cases b <;> cases dst <;> (unfold Statement; decide)

theorem inp (dst : Mode) : Statement (.inp dst) := by cases dst <;> (unfold Statement; decide)

theorem out (a : Mode) : Statement (.out a) := by cases a <;> (unfold Statement; decide)

theorem jnz (a target : Mode) : Statement (.jnz a target) := by
  cases a <;> cases target <;> (unfold Statement; decide)

theorem jz (a target : Mode) : Statement (.jz a target) := by
  cases a <;> cases target <;> (unfold Statement; decide)

theorem lt (a b dst : Mode) : Statement (.lt a b dst) := by
  cases a <;> cases b <;> cases dst <;> (unfold Statement; decide)

theorem eq (a b dst : Mode) : Statement (.eq a b dst) := by
  cases a <;> cases b <;> cases dst <;> (unfold Statement; decide)

theorem arb (a : Mode) : Statement (.arb a) := by cases a <;> (unfold Statement; decide)

theorem hlt : Statement .hlt := by unfold Statement; decide

end Sys2Proof.Laws.EncodedWord
end

