-- ==== Sys2Proof/Machine/Listing.lean ====
section
/-! DEFINITION. Machine/Listing.lean: the spec's own notation for instructions (30_encoding.md R88, R89, decision D18); no part of the
machine reads it. -/

namespace Sys2Proof.Machine

/-- The mnemonics (R80, R90). -/
def mnemonic : Instr → String
  | .add _ _ _ => "ADD"
  | .mul _ _ _ => "MUL"
  | .inp _ => "IN"
  | .out _ => "OUT"
  | .jnz _ _ => "JNZ"
  | .jz _ _ => "JZ"
  | .lt _ _ _ => "LT"
  | .eq _ _ _ => "EQ"
  | .arb _ => "ARB"
  | .hlt => "HLT"

/-- The modes of the parameters an instruction has, in order (R77). -/
def paramModes (i : Instr) : List Mode := [i.modes.1, i.modes.2.1, i.modes.2.2].take (i.width - 1)

/-- An operand: `[n]`, `#n` or `rb[n]` (R89). -/
def operandText (m : Mode) (n : Word) : String :=
  match m with
  | .position => "[" ++ toString n.toInt ++ "]"
  | .immediate => "#" ++ toString n.toInt
  | .relative => "rb[" ++ toString n.toInt ++ "]"

/-- A line of a listing (R89). -/
def lineText (i : Instr) (operands : List Word) : String :=
  match List.zipWith operandText (paramModes i) operands with
  | [] => mnemonic i
  | o :: rest => mnemonic i ++ " " ++ String.intercalate ", " (o :: rest)

/-- The words of a line: "the canonical instruction word of rule R76 followed by the `n` of each operand" (R89). -/
def assemble (i : Instr) (operands : List Word) : List Word := encode i :: operands

end Sys2Proof.Machine
end

