-- ==== Sys2Proof/Tests/Slice0.lean ====
section
/-! SUPPORT. Tests/Slice0.lean: smoke tests of WellFormed, decoding of words written out from 30_encoding.md R77 to R90 and
95_test_vectors.md section 2, single steps from its section 3, and for every obligation with hypotheses a state that meets
them. -/

namespace Sys2Proof.Tests

open Sys2Proof.Machine

/-! ## WellFormed refuses every immediate destination, and nothing else (20_memory.md R46) -/

theorem test_add_immediate_destination_refused :
    (Instr.add .position .position .immediate).wellFormed = false := by decide
theorem test_mul_immediate_destination_refused :
    (Instr.mul .relative .position .immediate).wellFormed = false := by decide
theorem test_lt_immediate_destination_refused :
    (Instr.lt .immediate .position .immediate).wellFormed = false := by decide
theorem test_eq_immediate_destination_refused :
    (Instr.eq .position .immediate .immediate).wellFormed = false := by decide
theorem test_in_immediate_destination_refused : (Instr.inp .immediate).wellFormed = false := by decide
theorem test_other_forms_accepted :
    (Instr.add .immediate .immediate .relative).wellFormed = true ∧ (Instr.inp .position).wellFormed = true ∧
    (Instr.out .immediate).wellFormed = true ∧ (Instr.jnz .immediate .immediate).wellFormed = true ∧
    (Instr.jz .immediate .immediate).wellFormed = true ∧ (Instr.arb .immediate).wellFormed = true ∧
    Instr.hlt.wellFormed = true := by decide

/-! ## Decoding (the words are 95_test_vectors.md section 2, and R90's canonical words) -/

theorem test_decode_add :
    decode 1 = .decoded (.add .position .position .position) ∧
    decode 21101 = .decoded (.add .immediate .immediate .relative) ∧
    decode 201 = .decoded (.add .relative .position .position) := by decide
theorem test_decode_mul :
    decode 1002 = .decoded (.mul .position .immediate .position) ∧
    decode 22202 = .decoded (.mul .relative .relative .relative) := by decide
theorem test_decode_in :
    decode 3 = .decoded (.inp .position) ∧ decode 203 = .decoded (.inp .relative) ∧
    decode 103 = .decoded (.inp .immediate) := by decide
theorem test_decode_out :
    decode 4 = .decoded (.out .position) ∧ decode 104 = .decoded (.out .immediate) ∧
    decode 204 = .decoded (.out .relative) ∧ decode 21004 = .decoded (.out .position) := by decide
theorem test_decode_jnz :
    decode 1105 = .decoded (.jnz .immediate .immediate) ∧ decode 2105 = .decoded (.jnz .immediate .relative) := by
  decide
theorem test_decode_jz :
    decode 2106 = .decoded (.jz .immediate .relative) ∧ decode 1006 = .decoded (.jz .position .immediate) := by decide
theorem test_decode_lt :
    decode 1107 = .decoded (.lt .immediate .immediate .position) ∧
    decode 20107 = .decoded (.lt .immediate .position .relative) := by decide
theorem test_decode_eq :
    decode 1008 = .decoded (.eq .position .immediate .position) ∧
    decode 20108 = .decoded (.eq .immediate .position .relative) := by decide
theorem test_decode_arb :
    decode 9 = .decoded (.arb .position) ∧ decode 109 = .decoded (.arb .immediate) ∧
    decode 209 = .decoded (.arb .relative) := by decide
theorem test_decode_hlt :
    decode 99 = .decoded .hlt ∧ decode 199 = .decoded .hlt ∧ decode 22299 = .decoded .hlt := by decide
theorem test_unknown_opcode_words :
    decode 0 = .unknownOpcode ∧ decode 10 = .unknownOpcode ∧ decode 98 = .unknownOpcode ∧
    decode 55 = .unknownOpcode ∧ decode 100 = .unknownOpcode ∧ decode 200 = .unknownOpcode ∧
    decode 1100 = .unknownOpcode ∧ decode 12245 = .unknownOpcode := by decide
theorem test_decode_error_words :
    decode 300 = .decodeError ∧ decode 301 = .decodeError ∧ decode 3001 = .decodeError ∧
    decode 30001 = .decodeError ∧ decode 304 = .decodeError ∧ decode 399 = .decodeError ∧
    decode 12345 = .decodeError ∧ decode 99999 = .decodeError ∧ decode 100001 = .decodeError ∧
    decode 100099 = .decodeError ∧ decode (-1) = .decodeError ∧ decode (-99) = .decodeError ∧
    decode (-1101) = .decodeError := by
  decide
theorem test_encode_canonical :
    encode (.add .position .immediate .relative) = 21001 ∧ encode (.inp .relative) = 203 ∧ encode .hlt = 99 := by
  decide
/-- The example of R89: `ADD [4], #3, rb[-2]` is `21001, 4, 3, -2`. -/
theorem test_assemble :
    assemble (.add .position .immediate .relative) [4, 3, -2] = [21001, 4, 3, -2] ∧
    paramModes (.jz .immediate .relative) = [.immediate, .relative] := by decide
theorem test_decode_table_word :
    decodeTableWord 256 1002 = some (.mul .position .immediate .position) ∧ decodeTableWord 64 399 = none := by decide

/-! ## Single steps (95_test_vectors.md section 3) -/

/-- One VM with a queue port, at `ip` with base `rb`. -/
def solo (ip rb : Nat) (program inputs : List Word) : State :=
  { vms :=
      [{ ip := ip, rb := rb, st := .running, mem := { tape := program, ext := [] }
         port := .queue { inFifo := inputs, lastOut := none, history := [] } }]
    feedback := false, cur := 0, turn := 0 }

/-- VM 0 after its step. -/
def after (s : State) : Option Vm :=
  match stepVm 0 s with
  | .next t => t.vms[0]?
  | .fault _ => none
  | .refused _ => none

def tapeAfter (s : State) : Option (List Word) := (after s).map fun v => v.mem.tape
def ipRbAfter (s : State) : Option (Nat × Nat) := (after s).map fun v => (v.ip, v.rb)
def stAfter (s : State) : Option RunState := (after s).map fun v => v.st

/-- A2: `9223372036854775807 + 1` wraps. -/
theorem test_add_wraps :
    tapeAfter (solo 0 0 [1101, 9223372036854775807, 1, 5, 99, 0] []) =
      some [1101, 9223372036854775807, 1, 5, 99, -9223372036854775808] := by decide
/-- A5: an immediate destination. -/
theorem test_add_immediate_destination_faults :
    stAfter (solo 0 0 [11101, 1, 1, 0, 99] []) =
      some (.faulted { fault := .invalidWriteTarget 3, ip := 0, word := 11101 }) := by decide
/-- M3: `3037000500 * 3037000500` wraps. -/
theorem test_mul_wraps :
    tapeAfter (solo 0 0 [1102, 3037000500, 3037000500, 5, 99, 0] []) =
      some [1102, 3037000500, 3037000500, 5, 99, -9223372036709301616] := by decide
/-- M1: signs. -/
theorem test_mul_signs :
    tapeAfter (solo 0 0 [1102, -3, 7, 0, 99] []) = some [-21, -3, 7, 0, 99] := by decide
/-- L3: the comparison is signed. -/
theorem test_lt_signed :
    tapeAfter (solo 0 0 [1107, 9223372036854775807, -9223372036854775808, 5, 99, 7] []) =
      some [1107, 9223372036854775807, -9223372036854775808, 5, 99, 0] := by decide
/-- L5: the destination is a source. -/
theorem test_lt_position :
    tapeAfter (solo 0 0 [7, 5, 6, 5, 99, 3, 4] []) = some [7, 5, 6, 5, 99, 1, 4] := by decide
/-- E3, E2. -/
theorem test_eq :
    tapeAfter (solo 0 0 [8, 0, 0, 0, 99] []) = some [1, 0, 0, 0, 99] ∧
    tapeAfter (solo 0 0 [1108, -1, 1, 5, 99, 7] []) = some [1108, -1, 1, 5, 99, 0] := by decide
/-- J6: position operands, an indirect jump; J2: not taken. -/
theorem test_jnz :
    ipRbAfter (solo 0 0 [5, 7, 8, 99, 104, 9, 99, 1, 4] []) = some (4, 0) ∧
    ipRbAfter (solo 0 0 [1105, 0, 4, 99, 104, 7, 99] []) = some (3, 0) := by decide
/-- J7: a negative target of a taken jump. -/
theorem test_jnz_negative_target :
    stAfter (solo 0 0 [1105, 1, -1, 99] []) =
      some (.faulted { fault := .addressRangeFault (-1), ip := 0, word := 1105 }) := by decide
/-- J3, J4. -/
theorem test_jz :
    ipRbAfter (solo 0 0 [1106, 0, 4, 99, 104, 7, 99] []) = some (4, 0) ∧
    ipRbAfter (solo 0 0 [1106, 5, 4, 99, 104, 7, 99] []) = some (3, 0) := by decide
/-- J10: the second parameter is read although the jump is not taken. -/
theorem test_jz_reads_target_eagerly :
    stAfter (solo 0 0 [106, 1, -5, 99] []) =
      some (.faulted { fault := .addressRangeFault (-5), ip := 0, word := 106 }) := by decide
/-- I1. -/
theorem test_in_stores : tapeAfter (solo 0 0 [3, 0, 4, 0, 99] [42]) = some [42, 0, 4, 0, 99] := by decide
/-- I3: the input is consumed before the destination faults. -/
theorem test_in_consumes_before_fault :
    (after (solo 0 0 [103, 0, 99] [5])).map (fun v => (v.st, v.port.pending)) =
      some (.faulted { fault := .invalidWriteTarget 1, ip := 0, word := 103 }, []) := by decide
/-- O3's second step: a relative operand. -/
theorem test_out_relative :
    (after (solo 2 2 [109, 2, 204, 1, 99] [])).map (fun v => (v.ip, v.port.readOutput, v.port.history)) =
      some (4, some 1, [1]) := by decide
/-- T4's last step: the parameter of an instruction at the top address is out of range. -/
theorem test_out_at_the_top :
    stAfter
      { vms :=
          [{ ip := 9223372036854775807, rb := 0, st := .running
             mem := { tape := [], ext := [(9223372036854775807, 104)] }, port := .queue QueuePort.empty }]
        feedback := false, cur := 0, turn := 0 } =
      some (.faulted { fault := .addressRangeFault 9223372036854775808, ip := 9223372036854775807, word := 104 }) := by
  decide
/-- B4's second step: the operand is read with the old base. -/
theorem test_arb_reads_with_old_base : ipRbAfter (solo 2 5 [109, 5, 209, 0, 99, 11] []) = some (4, 16) := by decide
/-- B2: a negative base. -/
theorem test_arb_negative :
    (after (solo 0 0 [109, -1, 99] [])).map (fun v => (v.rb, v.st)) =
      some (0, .faulted { fault := .addressRangeFault (-1), ip := 0, word := 109 }) := by decide
/-- H1. -/
theorem test_hlt : (after (solo 0 0 [22299] [])).map (fun v => (v.ip, v.st)) = some (0, .halted) := by decide
/-- X5 and X3: decode faults. -/
theorem test_decode_faults :
    stAfter (solo 0 0 [399] []) = some (.faulted { fault := .decodeError, ip := 0, word := 399 }) ∧
    stAfter (solo 0 0 [] []) = some (.faulted { fault := .unknownOpcode, ip := 0, word := 0 }) := by decide
/-- `withFetchWord` places an instruction where the first step after reset runs it (HLT, and IN on an empty queue). -/
theorem test_with_fetch_word :
    stAfter (State.reset.withFetchWord 64 99) = some .halted ∧
    stAfter (State.reset.withFetchWord 128 3) =
      some (.faulted { fault := .inputStarvation .queueEmpty, ip := 0, word := 3 }) := by decide
/-- The five codes of 60_exceptions.md R170. -/
theorem test_fault_codes :
    VmFault.decodeError.code = 1 ∧ VmFault.unknownOpcode.code = 2 ∧ (VmFault.invalidWriteTarget 3).code = 3 ∧
    (VmFault.inputStarvation .timedOut).code = 4 ∧ (VmFault.addressRangeFault (-1)).code = 5 := by decide

/-! ## Networks (95_test_vectors.md section 5) -/

/-- The inboxes of a network after its boot. -/
def inboxes (s : Option State) : List (List Word) := ((s.map State.vms).getD []).map fun v => v.port.pending

/-- N1: the seeded inboxes. -/
theorem test_network_seeds :
    inboxes (State.network [3, 11, 3, 12, 1, 11, 12, 11, 4, 11, 99, 0, 0] [10, 20] 1 false) = [[10, 1], [20]] := by
  decide
/-- A ring of two in which both VMs are blocked, as in N2's last steps. -/
def deadlock : State :=
  { vms :=
      [{ ip := 4, rb := 0, st := .running, mem := { tape := [7, 0, 3, 0, 3, 0, 99], ext := [] }
         port := .channel (ChannelPort.empty (some 1)) },
       { ip := 2, rb := 0, st := .running, mem := { tape := [6, 0, 3, 0, 3, 0, 99], ext := [] }
         port := .channel (ChannelPort.empty (some 0)) }]
    feedback := true, cur := 0, turn := 0 }
/-- N2: each blocked VM starves. -/
theorem test_deadlock_starves :
    stAfter deadlock = some (.faulted { fault := .inputStarvation .timedOut, ip := 4, word := 3 }) := by decide
/-- N3's OUT: in a ring of one the output lands in the VM's own inbox. -/
theorem test_ring_of_one_receives_its_output :
    (after
      { vms :=
          [{ ip := 0, rb := 0, st := .running, mem := { tape := [104, 11, 99], ext := [] }
             port := .channel (ChannelPort.empty (some 0)) }]
        feedback := true, cur := 0, turn := 0 }).map (fun v => (v.ip, v.port.pending, v.port.history)) =
      some (2, [11], [11]) := by decide

/-! ## Witnesses: for every obligation with hypotheses a concrete state and operands that meet them, at the boundary of every
clause -/

/-- `ADDR_MAX`, written out. -/
abbrev top : Nat := 9223372036854775807

def queuePort (inputs : List Word) : Port := .queue { inFifo := inputs, lastOut := none, history := [] }
def channelPort (inbox : List Word) (downstream : Option Nat) : Port :=
  .channel { inbox := inbox, lastOut := none, history := [], downstream := downstream }
def vm (ip rb : Nat) (tape : List Word) (ext : List (Nat × Word)) (port : Port) : Vm :=
  { ip := ip, rb := rb, st := .running, mem := { tape := tape, ext := ext }, port := port }
def single (v : Vm) : State := { vms := [v], feedback := false, cur := 0, turn := 0 }
def pair (v u : Vm) : State := { vms := [v, u], feedback := false, cur := 0, turn := 0 }

/-- An instruction with parameters 2 and 3 and its last one absent (0), `width` words below the top. -/
def high (width : Nat) (w : Word) : Vm :=
  vm (top - width) 0 [] [(top - width, w), (top - width + 1, 2), (top - width + 2, 3)] (queuePort [])

/-- One word too high: the advance would pass the top. -/
def tooHigh (width : Nat) (w : Word) : Vm :=
  vm (top - width + 1) 0 [] [(top - width + 1, w), (top - width + 2, 2)] (queuePort [])

theorem witness_DecodeReadsEveryField :
    (21201 : Word).toInt =
        (1 : Nat) + 100 * Mode.relative.digit + 1000 * Mode.immediate.digit + 10000 * Mode.relative.digit ∧
    (21299 : Word).toInt =
        (99 : Nat) + 100 * Mode.relative.digit + 1000 * Mode.immediate.digit + 10000 * Mode.relative.digit ∧
    (3 : Word).toInt =
        (3 : Nat) + 100 * Mode.position.digit + 1000 * Mode.position.digit + 10000 * Mode.position.digit := by decide

theorem witness_OtherWordsAreRefusedByName :
    (-1 : Word).toInt < 0 ∧ 99999 < (100000 : Word).toInt ∧ (99999 : Word).toInt ≤ 99999 ∧
    3 ≤ dig 2 (300 : Word).toInt.toNat ∧ 3 ≤ dig 4 (99999 : Word).toInt.toNat ∧
    (0 : Word).toInt.toNat % 100 ∉ [1, 2, 3, 4, 5, 6, 7, 8, 9, 99] ∧
    dig 2 (22298 : Word).toInt.toNat ≤ 2 ∧ dig 3 (22298 : Word).toInt.toNat ≤ 2 ∧
    dig 4 (22298 : Word).toInt.toNat ≤ 2 ∧
    (22298 : Word).toInt.toNat % 100 ∉ [1, 2, 3, 4, 5, 6, 7, 8, 9, 99] := by decide

theorem witness_FreshMemoryHoldsTheProgram :
    ([7, 8] : List Word)[1]? = some 8 ∧ ([7, 8] : List Word).length ≤ 2 := by decide

theorem witness_StoredWordReadsBackAlone :
    Memory.wf { tape := [1], ext := [(1, 5), (top, 6)] } = true ∧ (0 : Nat) ≠ top := by decide

theorem witness_MemReadChecksItsAddress :
    ((top : Nat) : Int) = top ∧ top ≤ 2 ^ 63 - 1 ∧ (-1 : Int) < 0 ∧ (2 ^ 63 - 1 : Int) < 9223372036854775808 := by decide

theorem witness_ReadParameterByMode :
    2 ^ 63 - 1 < (high 0 4).ip + 1 ∧ (high 1 4).ip + 1 ≤ 2 ^ 63 - 1 ∧
    rd (vm 0 0 [4, -1] [] (queuePort [])) 1 .position = .error (.addressRangeFault (-1)) := by
  repeat' first | exact ⟨rfl, rfl⟩ | apply And.intro | rfl | decide

theorem witness_WriteTargetByMode :
    Mode.position ≠ .immediate ∧ 2 ^ 63 - 1 < (high 0 3).ip + 1 ∧
    ((vm 0 1 [3, 9223372036854775806] [] (queuePort [])).mem.read 1).toInt + (1 : Nat) = 2 ^ 63 - 1 ∧
    ((vm 0 1 [3, 9223372036854775807] [] (queuePort [])).mem.read 1).toInt + (1 : Nat) = 2 ^ 63 ∧
    ((vm 0 1 [3, 0] [] (queuePort [])).mem.read 1).toInt = 0 ∧
    ((vm 0 1 [3, -1] [] (queuePort [])).mem.read 1).toInt = -1 := by decide

theorem witness_WrapIsTheCongruentWord :
    ((-9223372036854775808 : Word).toInt - 9223372036854775808) % 2 ^ 64 = 0 := by decide

theorem witness_AddStoresTheWrappedSum :
    (single (high 4 1101)).Stepping (high 4 1101) ∧ rd (high 4 1101) 1 .immediate = .ok 2 ∧
    rd (high 4 1101) 2 .immediate = .ok 3 ∧ destAddr (high 4 1101) 3 .position = .ok 0 ∧
    (high 4 1101).ip + 4 ≤ 2 ^ 63 - 1 := by
  repeat' first | exact ⟨rfl, rfl⟩ | apply And.intro | rfl | decide

theorem witness_MulStoresTheWrappedProduct :
    (single (high 4 1102)).Stepping (high 4 1102) ∧ rd (high 4 1102) 1 .immediate = .ok 2 ∧
    rd (high 4 1102) 2 .immediate = .ok 3 ∧ destAddr (high 4 1102) 3 .position = .ok 0 ∧
    (high 4 1102).ip + 4 ≤ 2 ^ 63 - 1 := by
  repeat' first | exact ⟨rfl, rfl⟩ | apply And.intro | rfl | decide

/-- Less (2 and 3), and equal (the cell at address 0 with itself). -/
theorem witness_ComparisonsStoreOneOrZero :
    (single (high 4 1107)).Stepping (high 4 1107) ∧ rd (high 4 1107) 1 .immediate = .ok 2 ∧
    rd (high 4 1107) 2 .immediate = .ok 3 ∧ destAddr (high 4 1107) 3 .position = .ok 0 ∧
    (high 4 1107).ip + 4 ≤ 2 ^ 63 - 1 ∧ (2 : Word).toInt < (3 : Word).toInt ∧
    rd (high 4 1107) 1 .position = .ok 0 ∧ rd (high 4 1107) 2 .position = .ok 0 := by
  repeat' first | exact ⟨rfl, rfl⟩ | apply And.intro | rfl | decide

/-- A jump to address 0, one to the top, and one not taken just below the top. -/
theorem witness_JumpsGoToTheirTargetOrOn :
    (single (vm 0 0 [1105, 1, 0] [] (queuePort []))).Stepping (vm 0 0 [1105, 1, 0] [] (queuePort [])) ∧
    rd (vm 0 0 [1105, 1, 0] [] (queuePort [])) 1 .immediate = .ok 1 ∧
    rd (vm 0 0 [1105, 1, 0] [] (queuePort [])) 2 .immediate = .ok 0 ∧ (0 : Word).toInt = (0 : Nat) ∧
    rd (vm 0 0 [1105, 1, 9223372036854775807] [] (queuePort [])) 2 .immediate = .ok 9223372036854775807 ∧
    (9223372036854775807 : Word).toInt = top ∧
    rd (high 3 1005) 1 .position = .ok 0 ∧ (high 3 1005).ip + 3 ≤ 2 ^ 63 - 1 := by
  repeat' first | exact ⟨rfl, rfl⟩ | apply And.intro | rfl | decide

theorem witness_InStoresTheOldestInput :
    (single (vm 0 0 [3, 0] [] (queuePort [7, 8]))).Stepping (vm 0 0 [3, 0] [] (queuePort [7, 8])) ∧
    destAddr (vm 0 0 [3, 0] [] (queuePort [7, 8])) 1 .position = .ok 0 ∧
    (vm 0 0 [3, 0] [] (queuePort [7, 8])).ip + 2 ≤ 2 ^ 63 - 1 ∧
    (vm 0 0 [3, 0] [] (queuePort [7, 8])).port = .queue { inFifo := [7, 8], lastOut := none, history := [] } ∧
    (single (vm 0 0 [3, 0] [] (channelPort [7] none))).Stepping (vm 0 0 [3, 0] [] (channelPort [7] none)) ∧
    destAddr (vm 0 0 [3, 0] [] (channelPort [7] none)) 1 .position = .ok 0 := by
  repeat' first | exact ⟨rfl, rfl⟩ | apply And.intro | rfl | decide

/-- The sender of a chain of two, the end of a chain, a ring of one, and a queue port. -/
theorem witness_OutRecordsAndSends :
    (∀ p ∈ [queuePort [], channelPort [] none, channelPort [] (some 0), channelPort [] (some 1)],
      (pair (vm 0 0 [104, 9] [] p) (vm 0 0 [] [] (channelPort [] none))).Stepping (vm 0 0 [104, 9] [] p) ∧
      rd (vm 0 0 [104, 9] [] p) 1 .immediate = .ok 9) ∧
    (pair (vm 0 0 [104, 9] [] (channelPort [] (some 1))) (vm 0 0 [] [] (channelPort [] none))).vms[1]? =
      some (vm 0 0 [] [] (channelPort [] none)) := ⟨fun _ _ => ⟨⟨rfl, rfl⟩, rfl⟩, rfl⟩

/-- The new base at the top and at 0. -/
theorem witness_ArbMovesTheBase :
    (single (vm 0 1 [109, 9223372036854775806] [] (queuePort []))).Stepping
      (vm 0 1 [109, 9223372036854775806] [] (queuePort [])) ∧
    rd (vm 0 1 [109, 9223372036854775806] [] (queuePort [])) 1 .immediate = .ok 9223372036854775806 ∧
    ((1 : Nat) : Int) + (9223372036854775806 : Word).toInt = top ∧ top ≤ 2 ^ 63 - 1 ∧
    ((1 : Nat) : Int) + (-1 : Word).toInt = (0 : Nat) := by
  repeat' first | exact ⟨rfl, rfl⟩ | apply And.intro | rfl | decide

theorem witness_HltOnlyHalts : (single (high 0 99)).Stepping (high 0 99) := ⟨rfl, rfl⟩

/-- The four clauses: parameter 1, parameter 2, destination, advance. -/
theorem witness_BinaryFaultsInOrder :
    binaryForm (.add .position .immediate .position) = some (addValue, .position, .immediate, .position) ∧
    (single (vm 0 0 [1, -1, -1, -1] [] (queuePort []))).Stepping (vm 0 0 [1, -1, -1, -1] [] (queuePort [])) ∧
    rd (vm 0 0 [1, -1, -1, -1] [] (queuePort [])) 1 .position = .error (.addressRangeFault (-1)) ∧
    rd (vm 0 0 [1, -1, -1, -1] [] (queuePort [])) 1 .immediate = .ok (-1) ∧
    rd (vm 0 0 [1, -1, -1, -1] [] (queuePort [])) 2 .position = .error (.addressRangeFault (-1)) ∧
    rd (vm 0 0 [1, -1, -1, -1] [] (queuePort [])) 2 .immediate = .ok (-1) ∧
    destAddr (vm 0 0 [1, -1, -1, -1] [] (queuePort [])) 3 .position = .error (.addressRangeFault (-1)) ∧
    (single (tooHigh 4 1101)).Stepping (tooHigh 4 1101) ∧ rd (tooHigh 4 1101) 1 .immediate = .ok 2 ∧
    rd (tooHigh 4 1101) 2 .immediate = .ok 0 ∧ destAddr (tooHigh 4 1101) 3 .position = .ok 0 ∧
    2 ^ 63 - 1 < (tooHigh 4 1101).ip + 4 := by
  repeat' first | exact ⟨rfl, rfl⟩ | apply And.intro | rfl | decide

/-- The four clauses: parameter 1, parameter 2, a negative target of a taken jump, the advance of one not taken. -/
theorem witness_JumpFaultsInOrder :
    jumpForm (.jnz .immediate .immediate) = some (nonZero, .immediate, .immediate) ∧
    jumpForm (.jz .immediate .immediate) = some (isZero, .immediate, .immediate) ∧
    (single (vm 0 0 [1105, -1, -1] [] (queuePort []))).Stepping (vm 0 0 [1105, -1, -1] [] (queuePort [])) ∧
    rd (vm 0 0 [1105, -1, -1] [] (queuePort [])) 1 .position = .error (.addressRangeFault (-1)) ∧
    rd (vm 0 0 [1105, -1, -1] [] (queuePort [])) 1 .immediate = .ok (-1) ∧
    rd (vm 0 0 [1105, -1, -1] [] (queuePort [])) 2 .position = .error (.addressRangeFault (-1)) ∧
    rd (vm 0 0 [1105, -1, -1] [] (queuePort [])) 2 .immediate = .ok (-1) ∧ nonZero (-1) = true ∧ isZero 0 = true ∧
    (-1 : Word).toInt < 0 ∧
    (single (tooHigh 3 1106)).Stepping (tooHigh 3 1106) ∧ rd (tooHigh 3 1106) 1 .immediate = .ok 2 ∧
    rd (tooHigh 3 1106) 2 .immediate = .ok 0 ∧ isZero 2 = false ∧ nonZero 0 = false ∧
    2 ^ 63 - 1 < (tooHigh 3 1106).ip + 3 := by
  repeat' first | exact ⟨rfl, rfl⟩ | apply And.intro | rfl | decide

/-- An input that is there, for a bad destination and for an advance past the top. -/
theorem witness_InFaultsAfterTakingItsInput :
    (single (vm 0 0 [3, -1] [] (queuePort [5]))).Stepping (vm 0 0 [3, -1] [] (queuePort [5])) ∧
    (vm 0 0 [3, -1] [] (queuePort [5])).port.takeInput true = .value 5 (queuePort []) ∧
    destAddr (vm 0 0 [3, -1] [] (queuePort [5])) 1 .position = .error (.addressRangeFault (-1)) ∧
    destAddr (vm (top - 1) 0 [] [(top - 1, 3)] (queuePort [5])) 1 .position = .ok 0 ∧
    2 ^ 63 - 1 < (vm (top - 1) 0 [] [(top - 1, 3)] (queuePort [5])).ip + 2 := by
  repeat' first | exact ⟨rfl, rfl⟩ | apply And.intro | rfl | decide

/-- A bad operand; the advance past the top without a downstream VM, in a ring of one, and with another one. -/
theorem witness_OutFaultsInOrder :
    (single (vm 0 0 [4, -1] [] (queuePort []))).Stepping (vm 0 0 [4, -1] [] (queuePort [])) ∧
    rd (vm 0 0 [4, -1] [] (queuePort [])) 1 .position = .error (.addressRangeFault (-1)) ∧
    rd (tooHigh 2 104) 1 .immediate = .ok 2 ∧ 2 ^ 63 - 1 < (tooHigh 2 104).ip + 2 ∧
    (tooHigh 2 104).port.downstream = none ∧
    (pair (vm (top - 1) 0 [] [(top - 1, 104)] (channelPort [] (some 1))) (vm 0 0 [] [] (channelPort [] none))).vms[1]? =
      some (vm 0 0 [] [] (channelPort [] none)) ∧
    (single (vm (top - 1) 0 [] [(top - 1, 104), (top, 9)] (channelPort [] (some 0)))).Stepping
      (vm (top - 1) 0 [] [(top - 1, 104), (top, 9)] (channelPort [] (some 0))) ∧
    rd (vm (top - 1) 0 [] [(top - 1, 104), (top, 9)] (channelPort [] (some 0))) 1 .immediate = .ok 9 ∧
    2 ^ 63 - 1 < (vm (top - 1) 0 [] [(top - 1, 104), (top, 9)] (channelPort [] (some 0))).ip + 2 ∧
    (vm (top - 1) 0 [] [(top - 1, 104), (top, 9)] (channelPort [] (some 0))).port.downstream = some 0 := by
  repeat' first | exact ⟨rfl, rfl⟩ | apply And.intro | rfl | decide

/-- A bad operand; the new base at -1 and at `ADDR_MAX + 1`; the advance past the top. -/
theorem witness_ArbFaultsInOrder :
    (single (vm 0 0 [9, -1] [] (queuePort []))).Stepping (vm 0 0 [9, -1] [] (queuePort [])) ∧
    rd (vm 0 0 [9, -1] [] (queuePort [])) 1 .position = .error (.addressRangeFault (-1)) ∧
    rd (vm 0 0 [9, -1] [] (queuePort [])) 1 .immediate = .ok (-1) ∧ ((0 : Nat) : Int) + (-1 : Word).toInt < 0 ∧
    (2 ^ 63 - 1 : Int) < ((1 : Nat) : Int) + (9223372036854775807 : Word).toInt ∧
    rd (tooHigh 2 109) 1 .immediate = .ok 2 ∧ ((0 : Nat) : Int) + (2 : Word).toInt = (2 : Nat) ∧
    2 ^ 63 - 1 < (tooHigh 2 109).ip + 2 := by
  repeat' first | exact ⟨rfl, rfl⟩ | apply And.intro | rfl | decide

theorem witness_IllFormedRaisesInvalidWriteTarget :
    (Instr.add .immediate .immediate .immediate).wellFormed = false ∧
    (single (vm 0 0 [11101, 1, 1, 0] [] (queuePort [5]))).Stepping (vm 0 0 [11101, 1, 1, 0] [] (queuePort [5])) ∧
    binaryForm (.add .immediate .immediate .immediate) = some (addValue, .immediate, .immediate, .immediate) ∧
    rd (vm 0 0 [11101, 1, 1, 0] [] (queuePort [5])) 1 .immediate = .ok 1 ∧
    rd (vm 0 0 [11101, 1, 1, 0] [] (queuePort [5])) 2 .immediate = .ok 1 ∧
    (Instr.inp .immediate).wellFormed = false ∧
    (vm 0 0 [11101, 1, 1, 0] [] (queuePort [5])).port.takeInput true = .value 5 (queuePort []) := by
  repeat' first | exact ⟨rfl, rfl⟩ | apply And.intro | rfl | decide

theorem witness_QueuePortPopsOrStarves :
    (single (vm 0 0 [3, 0] [] (queuePort []))).Stepping (vm 0 0 [3, 0] [] (queuePort [])) ∧
    (vm 0 0 [3, 0] [] (queuePort [])).port = .queue { inFifo := [], lastOut := none, history := [] } ∧
    (single (vm 0 0 [3, 0] [] (queuePort [4, 5]))).Stepping (vm 0 0 [3, 0] [] (queuePort [4, 5])) :=
  ⟨⟨rfl, rfl⟩, rfl, ⟨rfl, rfl⟩⟩

theorem witness_BinaryFrame :
    (∃ t, exec (.add .immediate .immediate .position) (single (high 4 1101)) = .next t) ∧
    binaryForm (.add .immediate .immediate .position) = some (addValue, .immediate, .immediate, .position) ∧
    destAddr (high 4 1101) 3 .position = .ok 0 ∧
    destAddr (high 4 1101) 3 .immediate = .error (.invalidWriteTarget (top - 1)) := ⟨⟨_, rfl⟩, rfl, rfl, rfl⟩

theorem witness_InFrame :
    (∃ t, exec (.inp .position) (single (vm 0 0 [3, 0] [] (queuePort [4]))) = .next t) ∧
    destAddr (vm 0 0 [3, 0] [] (queuePort [4])) 1 .position = .ok 0 ∧
    destAddr (vm 0 0 [3, 0] [] (queuePort [4])) 1 .immediate = .error (.invalidWriteTarget 1) :=
  ⟨⟨_, rfl⟩, rfl, rfl⟩

theorem witness_OutFrame :
    ∃ t, exec (.out .immediate)
      (pair (vm 0 0 [104, 9] [] (channelPort [] (some 1))) (vm 0 0 [] [] (channelPort [] none))) = .next t := ⟨_, rfl⟩

theorem witness_JumpBaseHaltFrame :
    ∀ i ∈ [Instr.jnz .immediate .immediate, .jz .immediate .immediate, .arb .immediate, .hlt],
      ∃ t, exec i (single (vm 0 0 [0, 0, 0] [] (queuePort []))) = .next t := by
  intro i hi
  simp only [List.mem_cons, List.not_mem_nil, or_false] at hi
  rcases hi with rfl | rfl | rfl | rfl <;> exact ⟨_, rfl⟩

theorem witness_StepRunsTheDecodedInstruction :
    (single (high 0 99)).chosen = some 0 ∧ (single (high 0 99)).vms[0]? = some (high 0 99) ∧
    (high 0 99).st = .running ∧ (high 0 99).ip ≤ 2 ^ 63 - 1 ∧
    decode ((high 0 99).mem.read (high 0 99).ip) = .decoded .hlt := by decide

/-- A word just outside either end, a bad mode digit at the greatest word, an unknown opcode, and unwritten memory. -/
theorem witness_DecodeFaultsChangeOnlyTheRunState (w : Word) :
    (single (vm 0 0 [w] [] (queuePort []))).vms[0]? = some (vm 0 0 [w] [] (queuePort [])) ∧
    (vm 0 0 [w] [] (queuePort [])).mem.read 0 = w ∧
    (-1 : Word).toInt < 0 ∧ 99999 < (100000 : Word).toInt ∧
    (99999 : Word).toInt = (99999 : Nat) ∧ 3 ≤ dig 2 99999 ∧ (22298 : Word).toInt = (22298 : Nat) ∧
    dig 2 22298 ≤ 2 ∧ dig 3 22298 ≤ 2 ∧ dig 4 22298 ≤ 2 ∧ 22298 % 100 ∉ [1, 2, 3, 4, 5, 6, 7, 8, 9, 99] ∧
    (0 : Word).toInt = (0 : Nat) := ⟨rfl, rfl, by decide⟩

/-- IN has taken its word and faults at its destination (the second case of `FaultsArePrecise`). -/
theorem witness_FaultKeepsIpAndRecordsIt :
    (single (vm 0 0 [3, -1] [] (queuePort [5]))).vms[0]? = some (vm 0 0 [3, -1] [] (queuePort [5])) ∧
    ∃ t v' r, stepVm 0 (single (vm 0 0 [3, -1] [] (queuePort [5]))) = .next t ∧ t.vms[0]? = some v' ∧
      v'.st = .faulted r := ⟨rfl, _, _, _, rfl, rfl, rfl⟩

/-- A faulting step of each kind: at its operand, at IN's destination, and at the advance past the top. -/
theorem witness_FaultsArePrecise :
    ∀ v ∈ [vm 0 0 [4, -1] [] (queuePort []), vm 0 0 [3, -1] [] (queuePort [5]), tooHigh 4 1101, tooHigh 2 109,
        vm (top - 1) 0 [] [(top - 1, 3)] (queuePort [5]), tooHigh 2 104,
        vm (top - 1) 0 [] [(top - 1, 104), (top, 9)] (channelPort [] (some 0))],
      (single v).vms[0]? = some v ∧
      ∃ t v' r, stepVm 0 (single v) = .next t ∧ t.vms[0]? = some v' ∧ v'.st = .faulted r := by
  intro v hv
  simp only [List.mem_cons, List.not_mem_nil, or_false] at hv
  rcases hv with rfl | rfl | rfl | rfl | rfl | rfl | rfl <;> exact ⟨rfl, _, _, _, rfl, rfl, rfl⟩

theorem witness_StoreIsSeenByTheNextFetch :
    binaryForm (.add .immediate .immediate .position) = some (addValue, .immediate, .immediate, .position) ∧
    (single (high 4 1101)).Stepping (high 4 1101) ∧ (high 4 1101).mem.wf = true ∧
    rd (high 4 1101) 1 .immediate = .ok 2 ∧ rd (high 4 1101) 2 .immediate = .ok 3 ∧
    destAddr (high 4 1101) 3 .position = .ok 0 ∧ (high 4 1101).ip + 4 ≤ 2 ^ 63 - 1 ∧
    (∀ p ∈ [queuePort [5], channelPort [5] none], (single (vm 0 0 [3, 0] [] p)).Stepping (vm 0 0 [3, 0] [] p) ∧
      (vm 0 0 [3, 0] [] p).mem.wf = true ∧ p.pending = 5 :: [] ∧ destAddr (vm 0 0 [3, 0] [] p) 1 .position = .ok 0 ∧
      (vm 0 0 [3, 0] [] p).ip + 2 ≤ 2 ^ 63 - 1) := by
  refine ⟨rfl, ⟨rfl, rfl⟩, by decide, rfl, rfl, rfl, by decide, fun p hp => ?_⟩
  simp only [List.mem_cons, List.not_mem_nil, or_false] at hp
  rcases hp with rfl | rfl <;> exact ⟨⟨rfl, rfl⟩, by decide, rfl, rfl, by decide⟩

/-- VM 0 sends to VM 1, which has halted. -/
theorem witness_TerminalStatesAreForEver :
    (∃ t, step (pair (vm 0 0 [104, 9] [] (channelPort [] (some 1)))
      { vm 0 0 [] [] (channelPort [] none) with st := .halted }) = .next t) ∧
    RunState.halted ≠ .running := ⟨⟨_, rfl⟩, by decide⟩

theorem witness_RelativeBaseLaw :
    (∃ t, exec (.add .immediate .immediate .position) (single (high 4 1101)) = .next t) ∧
    noRelative (.add .immediate .immediate .position) ∧
    (∃ t, exec (.arb .immediate) (pair (vm 0 0 [109, 3] [] (channelPort [] (some 1))) (vm 0 0 [] [] (channelPort [] none)))
      = .next t) ∧
    (∃ s, State.network [99] [1, 2] 0 true = some s) :=
  ⟨⟨_, rfl⟩, ⟨by decide, by decide, by decide⟩, ⟨_, rfl⟩, ⟨_, rfl⟩⟩

theorem witness_StepTouchesItsVmAndDownstreamOnly :
    (∃ t, stepVm 0 (single (vm 0 0 [104, 9] [] (channelPort [] (some 0)))) = .next t) ∧
    (∃ t, stepVm 0 (pair (vm 0 0 [104, 9] [] (channelPort [] (some 1))) (vm 0 0 [] [] (channelPort [] none)))
      = .next t) ∧
    (pair (vm 0 0 [104, 9] [] (channelPort [] (some 1))) (vm 0 0 [] [] (channelPort [] none))).vms[1]? =
      some (vm 0 0 [] [] (channelPort [] none)) ∧
    (∃ s, State.network [99] [1, 2] 0 true = some s) := ⟨⟨_, rfl⟩, ⟨_, rfl⟩, rfl, ⟨_, rfl⟩⟩

theorem witness_SendAppendsToTheInbox :
    deadlock.vms[1]? = some (vm 2 0 [6, 0, 3, 0, 3, 0, 99] [] (channelPort [] (some 0))) := rfl

theorem witness_PortsAreFirstInFirstOut :
    (queuePort [4, 5]).pending = 4 :: [5] ∧ (channelPort [4] none).pending = 4 :: [] := by decide

/-- VM 1 waits while VM 0 can run. -/
theorem witness_BlockedVmHasNoStep :
    (pair (vm 0 0 [99] [] (channelPort [] (some 1))) (vm 0 0 [3, 0] [] (channelPort [] none))).vms[1]? =
      some (vm 0 0 [3, 0] [] (channelPort [] none)) ∧
    (vm 0 0 [3, 0] [] (channelPort [] none)).blocked = true ∧
    (vm 0 0 [3, 0] [] (channelPort [] none)).ip ≤ 2 ^ 63 - 1 ∧
    (pair (vm 0 0 [99] [] (channelPort [] (some 1))) (vm 0 0 [3, 0] [] (channelPort [] none))).quiescent = false := by
  decide

theorem witness_QuiescenceStarvesBlockedVms :
    deadlock.vms[1]? = some (vm 2 0 [6, 0, 3, 0, 3, 0, 99] [] (channelPort [] (some 0))) ∧
    (vm 2 0 [6, 0, 3, 0, 3, 0, 99] [] (channelPort [] (some 0))).blocked = true ∧ deadlock.quiescent = true := by decide

/-- Both sides of the equivalence hold of a halted machine. -/
theorem witness_RunIsOverExactlyWhenAllAreTerminal :
    step (single { high 0 99 with st := .halted }) = .fault .runOver ∧
    (single { high 0 99 with st := .halted }).over = true := ⟨rfl, by decide⟩

/-- A chain of two that meets the invariant, both VMs enabled: VM 0 is about to send. -/
def chain : State :=
  pair (vm 0 0 [104, 9, 99] [] (channelPort [1] (some 1))) (vm 0 0 [3, 5, 99] [] (channelPort [2] none))

theorem chain_inv : chain.Inv := by
  refine ⟨by decide, fun k v h => ?_, fun k v h => ?_⟩ <;>
    match k, h with
    | 0, h => cases h; first | rfl | exact ⟨by decide, by decide, by decide, by decide⟩
    | 1, h => cases h; first | rfl | exact ⟨by decide, by decide, by decide, by decide⟩
    | k + 2, h => cases h

/-- In `chain` VM 1 may step although the lower-numbered VM 0 is enabled too; in `deadlock`, both VMs are blocked. -/
theorem witness_EveryScheduleIsAllowed :
    chain.vms[1]? = some (vm 0 0 [3, 5, 99] [] (channelPort [2] none)) ∧
    (vm 0 0 [3, 5, 99] [] (channelPort [2] none)).enabled = true ∧ chain.Inv ∧
    (∃ u, stepVm 1 chain = .next u) ∧ (∃ t, step chain = .next t) ∧ (∃ u, NetStep chain u) ∧
    chain.candidates = [0, 1] ∧ deadlock.quiescent = true ∧ deadlock.candidates = [0, 1] :=
  ⟨rfl, by decide, chain_inv, ⟨_, rfl⟩, ⟨_, rfl⟩, ⟨_, ⟨0, by decide, rfl⟩⟩, by decide, by decide, by decide⟩

theorem witness_EnabledStepsCommute :
    chain.Inv ∧ chain.vms[0]? = some (vm 0 0 [104, 9, 99] [] (channelPort [1] (some 1))) ∧
    chain.vms[1]? = some (vm 0 0 [3, 5, 99] [] (channelPort [2] none)) ∧
    (vm 0 0 [104, 9, 99] [] (channelPort [1] (some 1))).enabled = true ∧
    (vm 0 0 [3, 5, 99] [] (channelPort [2] none)).enabled = true := ⟨chain_inv, by decide⟩

/-- N6 in small: two VMs that halt at once; one schedule of its end. -/
def twoHalts (s0 s1 : RunState) : State :=
  { vms :=
      [{ ip := 0, rb := 0, st := s0, mem := { tape := [99], ext := [] }, port := channelPort [1, 0] (some 1) },
       { ip := 0, rb := 0, st := s1, mem := { tape := [99], ext := [] }, port := channelPort [2] none }]
    feedback := false, cur := 1, turn := 0 }

theorem twoHalts_reaches : Reaches { twoHalts .running .running with cur := 0 } (twoHalts .halted .halted) :=
  .tail (.tail .refl ⟨0, by decide, rfl⟩) ⟨1, by decide, rfl⟩

theorem witness_FinalStateIsTheSameOnEverySchedule :
    State.Inv { twoHalts .running .running with cur := 0 } ∧
    Reaches { twoHalts .running .running with cur := 0 } (twoHalts .halted .halted) ∧
    (twoHalts .halted .halted).over = true := by
  refine ⟨⟨by decide, fun k v h => ?_, fun k v h => ?_⟩, twoHalts_reaches, by decide⟩ <;>
    match k, h with
    | 0, h => cases h; first | rfl | exact ⟨by decide, by decide, by decide, by decide⟩
    | 1, h => cases h; first | rfl | exact ⟨by decide, by decide, by decide, by decide⟩
    | k + 2, h => cases h

/-- H2, `1105,1,0`: the endless loop. -/
theorem witness_EnabledVmIsEventuallyStepped :
    InfiniteRun (fun _ => solo 0 0 [1105, 1, 0] []) (fun _ => 0) ∧
    WeaklyFair (fun _ => solo 0 0 [1105, 1, 0] []) (fun _ => 0) ∧ (solo 0 0 [1105, 1, 0] []).enables 0 := by
  refine ⟨⟨fun _ => by decide, fun _ => rfl⟩, fun n k h => ⟨n, Nat.le_refl n, ?_⟩, ⟨_, rfl, by decide⟩⟩
  obtain ⟨v, hv, -⟩ := h n (Nat.le_refl n)
  match k, hv with
  | 0, _ => rfl
  | k + 1, hv => cases hv

theorem witness_EvaluateHasOneResult : Evaluates [99] [1, 2] 0 false .noOutput :=
  ⟨_, _, rfl, twoHalts_reaches, by decide⟩

theorem witness_NetworkBootState :
    ([5, 6] : List Word) ≠ [] ∧ ([5, 6] : List Word)[0]? = some 5 ∧ ([5, 6] : List Word)[1]? = some 6 := by decide

theorem witness_RunsStartAtZeroRunning : ∃ s, State.network [99] [1] 0 true = some s := ⟨_, rfl⟩

theorem witness_LaterRunKeepsTheMemory : Memory.wf { tape := [], ext := [(1000, 1)] } = true := by decide

theorem witness_RunLeavesMemoryAndPort :
    Runs { tape := [99], ext := [] } { inFifo := [5], lastOut := none, history := [] }
      (single { vm 0 0 [99] [] (queuePort [5]) with st := .halted }) :=
  ⟨.tail .refl ⟨0, by decide, rfl⟩, by decide⟩

theorem witness_InvariantAtBoot :
    Memory.wf { tape := [], ext := [(1000, 1)] } = true ∧
    (some 3 : Option Word) = ([2, 3] : List Word).getLast? ∧ (∃ s, State.network [99] [1] 0 true = some s) :=
  ⟨by decide, by decide, _, rfl⟩

theorem witness_StepKeepsTheInvariant : chain.Inv ∧ ∃ t, step chain = .next t := ⟨chain_inv, _, rfl⟩

theorem witness_RunningMachineAlwaysSteps : chain.Inv ∧ ∃ v ∈ chain.vms, v.st = .running :=
  ⟨chain_inv, _, .head _, rfl⟩

/-- A running machine, one with a fault, one that ended well with an output, and one that ended well with none. -/
theorem witness_EvaluateResultOrFailure :
    (∃ v ∈ chain.vms, v.st = .running) ∧
    (∃ (v : Vm) (r : FaultRecord),
      v ∈ (single { high 0 0 with st := .faulted { fault := .unknownOpcode, ip := top, word := 0 } }).vms ∧
      v.st = .faulted r) ∧
    (single { vm 0 0 [] [] (.queue { inFifo := [], lastOut := some 7, history := [7] }) with st := .halted }).endedWell ∧
    (twoHalts .halted .halted).endedWell ∧
    ((twoHalts .halted .halted).vms.getLast?.map fun v => v.port.readOutput) = some none := by
  refine ⟨⟨_, .head _, rfl⟩, ⟨_, _, .head _, rfl⟩, fun v h => ?_, fun v h => ?_, by decide⟩
  · simp only [single, List.mem_singleton] at h; subst h; rfl
  · simp only [twoHalts, List.mem_cons, List.not_mem_nil, or_false] at h
    rcases h with rfl | rfl <;> rfl

/-- A tie is won by the first; a failure stops the search. -/
theorem witness_SearchKeepsTheFirstMaximum :
    search (([([0], 5), ([1], 7), ([2], 7)] : List (List Word × Word)).map fun pr => (pr.1, .value pr.2)) =
      .ok (some ([1], 7)) ∧
    (∀ x : Word, EvalResult.noOutput ≠ .value x) := ⟨rfl, nofun⟩

/-- Take one step of each VM named, as far as each may step. -/
def follow : List Nat → State → Option State
  | [], s => some s
  | k :: ks, s =>
    if k ∈ s.candidates then
      match stepVm k s with
      | .next t => follow ks t
      | .fault _ => none
      | .refused _ => none
    else none

theorem follow_reaches {ks : List Nat} {s t : State} (h : follow ks s = some t) : Reaches s t := by
  induction ks generalizing s with
  | nil => cases h; exact .refl
  | cons k ks ih =>
    simp only [follow] at h
    split at h
    · next hk =>
      split at h
      · next u hu => exact .head ⟨k, hk, hu⟩ (ih h)
      · cases h
      · cases h
    · cases h

/-- `[104, 7, 99]` outputs 7 in either order of the phases. -/
theorem sevens_evaluates :
    Evaluates [104, 7, 99] [2, 1] 0 false (.value 7) ∧ Evaluates [104, 7, 99] [1, 2] 0 false (.value 7) :=
  ⟨⟨_, _, rfl, follow_reaches (ks := [0, 0, 1, 1]) rfl, by decide⟩,
    ⟨_, _, rfl, follow_reaches (ks := [0, 1, 0, 1]) rfl, by decide⟩⟩

/-- A search with a tie between its two permutations, and one that fails: `[99]` outputs nothing. -/
theorem witness_SearchMaximizesOverAllPermutations :
    Searches [104, 7, 99] [1, 2] 0 false [[2, 1], [1, 2]] (.ok (some ([2, 1], 7))) ∧
    Searches [99] [1] 0 true [[1]] (.error .noOutput) := by
  refine ⟨⟨⟨by decide, fun p => ?_⟩, [([2, 1], .value 7), ([1, 2], .value 7)], ?_, ⟨[], rfl⟩, .inl rfl, rfl⟩,
    ⟨⟨by decide, fun p => ?_⟩, [([1], .noOutput)], ?_, ⟨[], rfl⟩, .inl rfl, rfl⟩⟩
  · constructor
    · simp only [List.mem_cons, List.not_mem_nil, or_false]
      rintro (rfl | rfl) <;> decide
    · intro h
      obtain ⟨x, y, rfl⟩ : ∃ x y, p = [x, y] := by
        match p, h.length_eq with
        | [x, y], _ => exact ⟨x, y, rfl⟩
      have hx := h.mem_iff (a := x)
      have h1 := h.mem_iff (a := 1)
      have h2 := h.mem_iff (a := 2)
      simp only [List.mem_cons, List.not_mem_nil, or_false, true_or, or_true, true_iff, iff_true] at hx h1 h2
      have h12 : (1 : Word) ≠ 2 := by decide
      rcases hx with rfl | rfl
      · rcases h2 with h2 | rfl
        · exact absurd h2.symm h12
        · exact .tail _ (.head _)
      · rcases h1 with h1 | rfl
        · exact absurd h1 h12
        · exact .head _
  · intro pr h
    simp only [List.mem_cons, List.not_mem_nil, or_false] at h
    rcases h with rfl | rfl
    · exact sevens_evaluates.1
    · exact sevens_evaluates.2
  · simp only [List.mem_singleton, List.perm_singleton]
  · intro pr h
    simp only [List.mem_singleton] at h
    subst h
    exact ⟨_, _, rfl, follow_reaches (ks := [0]) rfl, by decide⟩

/-- One VM halted while the other runs (nothing to see of either), and both ended. -/
theorem witness_ReportShowsWhatTheHostMayObserve :
    (∃ v ∈ (twoHalts .halted .running).vms, v.st = .running) ∧
    (twoHalts .halted .running).report 0 = none ∧
    (∀ v ∈ (twoHalts .halted (.faulted { fault := .unknownOpcode, ip := 0, word := 0 })).vms, v.st ≠ .running) ∧
    (∃ v, (twoHalts .halted (.faulted { fault := .unknownOpcode, ip := 0, word := 0 })).vms[1]? = some v) :=
  ⟨⟨_, .tail _ (.head _), rfl⟩, rfl, by decide, ⟨_, rfl⟩⟩

end Sys2Proof.Tests
end

/-! PROOFS of the scope statements (00_scope.md): the wrap of the arithmetic, and which VMs may take the next step. -/

namespace Sys2Proof.Machine

/-! ## `wrap64` (R8) -/

theorem wrap64_toInt (z : Int) : (wrap64 z).toInt = (z + 2 ^ 63) % 2 ^ 64 - 2 ^ 63 := by
  rw [wrap64, BitVec.toInt_ofInt, Int.bmod_def]
  omega

/-- Two words congruent modulo `2^64` are one: both values lie in the same `2^64` consecutive integers. -/
theorem eq_wrap64_of_congruent {w : Word} {z : Int} (h : (w.toInt - z) % 2 ^ 64 = 0) : w = wrap64 z := by
  apply BitVec.eq_of_toInt_eq
  have hlow : -2 ^ 63 ≤ w.toInt := BitVec.le_toInt w
  have hhigh : w.toInt < 2 ^ 63 := BitVec.toInt_lt
  rw [wrap64_toInt]
  omega

/-! ## Blocked and enabled VMs (R12) -/

theorem Port.waiting_iff {p : Port} : p.waiting = true ↔ ∃ c : ChannelPort, p = .channel c ∧ c.inbox = [] := by
  cases p with
  | queue q => simp [Port.waiting]
  | channel c => simp [Port.waiting]

theorem Vm.enabled_iff_running_unblocked {v : Vm} : v.enabled = true ↔ v.st = .running ∧ v.blocked = false := by
  simp [Vm.enabled]

/-! ## The machine's steps and the network's -/

theorem netStep_iff {s u : State} : NetStep s u ↔ ∃ k : Nat, k ∈ s.candidates ∧ stepVm k s = .next u :=
  ⟨fun ⟨k, may, steps⟩ => ⟨k, may, steps⟩, fun ⟨k, may, steps⟩ => ⟨k, may, steps⟩⟩

/-- The machine's step is a network step of the VM it chose, followed by the next draw of the schedule. -/
theorem step_next {s t : State} (h : step s = .next t) : ∃ u : State, NetStep s u ∧ t = u.reschedule := by
  obtain ⟨k, u, hk, hu, ht⟩ := networkStep_next h
  exact ⟨u, ⟨k, State.chosen_mem hk, hu⟩, ht⟩

/-- A candidate is chosen when the scheduler's choice names it. -/
theorem State.select_chosen {s : State} {k : Nat} (h : k ∈ s.candidates) : (s.select k).chosen = some k :=
  pick_self h

/-- The step of a candidate is the machine's step once the scheduler's choice names that candidate: `stepVm k` does not
look at the choice that stood before. -/
theorem step_select {s u : State} {k : Nat} (may : k ∈ s.candidates) (steps : stepVm k s = .next u) :
    step (s.select k) = .next u.reschedule := by
  have hsteps : stepVm k (s.select k) = .next u := steps
  simp only [step, networkStep, State.select_chosen may, hsteps]

theorem State.mem_candidates_of_enabled {s : State} {k : Nat} {v : Vm} (hv : s.vms[k]? = some v)
    (he : v.enabled = true) : k ∈ s.candidates :=
  State.mem_candidates.2 ⟨v, hv, .inl he⟩

/-! ## An enabled VM has a step under the invariant -/

theorem downstreamOf_lt {n i j : Nat} {feedback : Bool} (hi : i < n) (h : downstreamOf n feedback i = some j) :
    j < n := by
  unfold downstreamOf at h
  split at h
  · next hn => cases h; exact hn
  · split at h
    · cases h; omega
    · cases h

/-- Under the invariant every VM that a port sends to exists. -/
theorem State.Inv.downstream_lt {s : State} (hs : s.Inv) {k j : Nat} {v : Vm} (hv : s.vms[k]? = some v)
    (hd : v.port.downstream = some j) : j < s.vms.length := by
  have hwired := hs.topology k v hv
  cases hp : v.port with
  | queue q => rw [hp] at hd; cases hd
  | channel c =>
    rw [hp] at hd hwired
    exact downstreamOf_lt (List.getElem?_eq_some_iff.1 hv).1 (hwired.symm.trans hd)

/-- Under the invariant an enabled VM has a step. -/
theorem stepVm_isNext_of_enabled {s : State} (hs : s.Inv) {k : Nat} {v : Vm} (hv : s.vms[k]? = some v)
    (he : v.enabled = true) : ∃ u : State, stepVm k s = .next u :=
  ⟨_, stepVm_own hv he (hs.vm_inv k v hv).ip_le fun _ hd => hs.downstream_lt hv hd⟩

end Sys2Proof.Machine

/-! ## The statements settled -/

namespace Sys2Proof.Proofs

open Sys2Proof Sys2Proof.Machine

/-- Settles O10: the formula is `Int.bmod` written out, and a word is determined by its residue. -/
theorem wrapIsTheCongruentWord : Obligations.WrapIsTheCongruentWord :=
  fun z => ⟨wrap64_toInt z, fun _ h => eq_wrap64_of_congruent h⟩

/-- Settles O42: the choice that makes the machine take the step of candidate `k` is `k` itself. -/
theorem everyScheduleIsAllowed : Obligations.EveryScheduleIsAllowed := by
  refine ⟨fun v => ⟨?blocked, Vm.enabled_iff_running_unblocked⟩, fun _ => State.quiescent_iff,
    fun _ _ => State.mem_candidates, fun _ _ => netStep_iff, fun _ _ => step_next, ?anyStep, ?enabled⟩
  case blocked => rw [Vm.blocked_iff, Port.waiting_iff, Vm.instrWord]
  case anyStep =>
    intro s u ⟨k, may, steps⟩
    exact ⟨k, step_select may steps⟩
  case enabled =>
    intro s k v hv he
    exact ⟨fun u steps => ⟨k, step_select (State.mem_candidates_of_enabled hv he) steps⟩,
      fun hs => stepVm_isNext_of_enabled hs hv he⟩

end Sys2Proof.Proofs

/-! PROOFS of the state statements (10_state.md): what a run starts from, what an instruction leaves unchanged, and the invariant
that every step keeps. -/

namespace Sys2Proof.Machine

/-! ## Memory and the frame of a store (R34, R45) -/

/-- A write to a canonical Memory reads back. -/
theorem Memory.read_write_self {m : Memory} (a : Nat) (x : Word) (h : m.wf = true) : (m.write a x).read a = x := by
  unfold Memory.write Memory.read
  split
  · next ha => simp [ha]
  · next ha => simpa [ha] using extRead_extWrite_self x h

/-- From `m` to `m'` no address but the destination `dest` changes, none where the destination faults, and `L` stays. -/
structure StoresOnly (dest : Except VmFault Nat) (m m' : Memory) : Prop where
  length : m'.tape.length = m.tape.length
  others : ∀ d : Nat, dest = .ok d → ∀ n : Nat, n ≠ d → m'.read n = m.read n
  fault : ∀ f : VmFault, dest = .error f → m' = m

theorem StoresOnly.same (dest : Except VmFault Nat) (m : Memory) : StoresOnly dest m m where
  length := rfl
  others := fun _ _ _ _ => rfl
  fault := fun _ _ => rfl

theorem StoresOnly.write (d : Nat) (m : Memory) (x : Word) : StoresOnly (.ok d) m (m.write d x) where
  length := m.write_length d x
  others := by
    rintro _ ⟨⟩ n hn
    exact m.read_write_ne x hn
  fault := nofun

/-! ## What one VM keeps while it executes -/

theorem RunState.ne_halted_of_running {st : RunState} (h : st = .running) : st ≠ .halted := by
  rw [h]; exact nofun

theorem Vm.raise_ne_halted (v : Vm) (w : Word) (f : VmFault) : (v.raise w f).st ≠ .halted := nofun

/-- ADD, MUL, LT and EQ change one cell, `ip` and, by a fault, `st`. -/
theorem binary_frame (op : Word → Word → Word) (a b dst : Mode) {v : Vm} (hr : v.st = .running) :
    (binary op a b dst v).rb = v.rb ∧ (binary op a b dst v).port = v.port ∧
    StoresOnly (destAddr v 3 dst) v.mem (binary op a b dst v).mem ∧ (binary op a b dst v).st ≠ .halted := by
  obtain ⟨f, -, he⟩ | ⟨x, y, d, -, -, hd, ⟨-, he⟩ | ⟨-, he⟩⟩ := binary_cases op a b dst v
  · rw [he]
    exact ⟨rfl, rfl, .same _ _, v.raise_ne_halted _ f⟩
  · rw [he, hd]
    exact ⟨rfl, rfl, .write d v.mem _, RunState.ne_halted_of_running hr⟩
  · rw [he, hd]
    exact ⟨rfl, rfl, .write d v.mem _, Vm.raise_ne_halted _ _ _⟩

/-- IN, once it has its input, changes one cell, `ip`, its port and, by a fault, `st`. -/
theorem storeInput_frame (dst : Mode) (x : Word) (p : Port) {v : Vm} (hr : v.st = .running) :
    (storeInput dst x p v).rb = v.rb ∧ StoresOnly (destAddr v 1 dst) v.mem (storeInput dst x p v).mem ∧
    (storeInput dst x p v).st ≠ .halted := by
  obtain ⟨f, -, he⟩ | ⟨d, hd, ⟨-, he⟩ | ⟨-, he⟩⟩ := storeInput_cases dst x p v
  · rw [he]
    exact ⟨rfl, .same _ _, Vm.raise_ne_halted _ _ f⟩
  · rw [he, hd]
    exact ⟨rfl, .write d v.mem x, RunState.ne_halted_of_running hr⟩
  · rw [he, hd]
    exact ⟨rfl, .write d v.mem x, Vm.raise_ne_halted _ _ _⟩

/-- An advance changes `ip` or, by a fault, `st`. -/
theorem Vm.advance_frame {v : Vm} (w : Word) (width : Nat) (hr : v.st = .running) :
    (v.advance w width).mem = v.mem ∧ (v.advance w width).rb = v.rb ∧ (v.advance w width).st ≠ .halted := by
  obtain ⟨-, he⟩ | ⟨-, he⟩ := v.advance_cases w width
  · rw [he]
    exact ⟨rfl, rfl, RunState.ne_halted_of_running hr⟩
  · rw [he]
    exact ⟨rfl, rfl, v.raise_ne_halted _ _⟩

/-- JNZ and JZ change `ip` or, by a fault, `st`. -/
theorem jumpIf_frame (test : Word → Bool) (a target : Mode) {v : Vm} (hr : v.st = .running) :
    (jumpIf test a target v).mem = v.mem ∧ (jumpIf test a target v).port = v.port ∧
    (jumpIf test a target v).rb = v.rb ∧ (jumpIf test a target v).st ≠ .halted := by
  obtain ⟨f, he⟩ | ⟨_, _, n, -, -, -, -, he⟩ := jumpIf_cases test a target v
  · rw [he]
    exact ⟨rfl, rfl, rfl, v.raise_ne_halted _ f⟩
  · rw [he]
    exact ⟨rfl, rfl, rfl, RunState.ne_halted_of_running hr⟩

/-- ARB changes `rb`, `ip` and, by a fault, `st`. -/
theorem adjustBase_frame (a : Mode) {v : Vm} (hr : v.st = .running) :
    (adjustBase a v).mem = v.mem ∧ (adjustBase a v).port = v.port ∧ (adjustBase a v).st ≠ .halted := by
  obtain ⟨f, he⟩ | ⟨_, r, -, -, -, ⟨-, he⟩ | ⟨-, he⟩⟩ := adjustBase_cases a v
  · rw [he]
    exact ⟨rfl, rfl, v.raise_ne_halted _ f⟩
  · rw [he]
    exact ⟨rfl, rfl, RunState.ne_halted_of_running hr⟩
  · rw [he]
    exact ⟨rfl, rfl, Vm.raise_ne_halted _ _ _⟩

/-! ## Ports (R29, R30) -/

/-- What taking a value leaves of the port. -/
theorem Port.takeInput_value {p p' : Port} {quiet : Bool} {x : Word} (h : p.takeInput quiet = .value x p') :
    p.pending = x :: p'.pending ∧ p'.readOutput = p.readOutput ∧ p'.history = p.history ∧
    p'.downstream = p.downstream := by
  obtain ⟨y, p1, h1, hrest⟩ | ⟨-, -, h1⟩ | ⟨-, -, h1⟩ := p.takeInput_cases quiet
  · rw [h] at h1
    cases h1
    exact hrest
  · rw [h] at h1; cases h1
  · rw [h] at h1; cases quiet <;> cases h1

/-- Only in a ring of one does a VM find its own output among its waiting words. -/
theorem Port.written_pending {p : Port} {own : Nat} (x : Word) (h : p.downstream ≠ some own) :
    (p.written own x).pending = p.pending := by
  rw [Port.written, if_neg h, Port.record_pending]

/-- `add_input` word by word appends the words in their order. -/
theorem Port.addInputs_queue (q : QueuePort) (xs : List Word) :
    Port.addInputs (.queue q) xs = .queue { q with inFifo := q.inFifo ++ xs } := by
  induction xs generalizing q with
  | nil => simp [Port.addInputs]
  | cons x xs ih =>
    calc Port.addInputs (.queue q) (x :: xs)
      _ = Port.addInputs (.queue { q with inFifo := q.inFifo ++ [x] }) xs := rfl
      _ = .queue { q with inFifo := q.inFifo ++ x :: xs } := by rw [ih, List.append_assoc]; rfl

theorem Port.wf_iff {p : Port} : p.wf = true ↔ p.readOutput = p.history.getLast? := by simp [Port.wf]

theorem Port.record_wf (p : Port) (x : Word) : (p.record x).wf = true := by simp [Port.wf_iff]

theorem Port.addInput_wf {p : Port} (x : Word) (h : p.wf = true) : (p.addInput x).wf = true := by
  simpa [Port.wf_iff] using h

theorem Port.takeInput_wf {p p' : Port} {quiet : Bool} {x : Word} (h : p.takeInput quiet = .value x p')
    (hp : p.wf = true) : p'.wf = true := by
  obtain ⟨-, hout, hhist, -⟩ := Port.takeInput_value h
  rwa [Port.wf_iff, hout, hhist, ← Port.wf_iff]

section Wiring

variable {n k : Nat} {feedback : Bool}

theorem Port.addInput_wired (p : Port) (x : Word) : (p.addInput x).wired n feedback k ↔ p.wired n feedback k := by
  cases p <;> exact .rfl

theorem Port.record_wired (p : Port) (x : Word) : (p.record x).wired n feedback k ↔ p.wired n feedback k := by
  cases p <;> exact .rfl

theorem Port.takeInput_wired {p p' : Port} {quiet : Bool} {x : Word} (h : p.takeInput quiet = .value x p') :
    p'.wired n feedback k ↔ p.wired n feedback k := by
  cases p with
  | queue q =>
    simp only [Port.takeInput] at h
    split at h
    · cases h
    · cases h; exact .rfl
  | channel c =>
    simp only [Port.takeInput] at h
    split at h
    · split at h <;> cases h
    · cases h; exact .rfl

end Wiring

/-! ## The invariant (R21, R22, R27, R29, R31) -/

/-- A VM that starts on a canonical Memory with a well-formed port meets the invariant. -/
theorem Vm.start_inv {mem : Memory} {port : Port} (hm : mem.wf = true) (hp : port.wf = true) :
    (Vm.start mem port).Inv where
  ip_le := Nat.zero_le _
  rb_le := Nat.zero_le _
  mem_wf := hm
  port_wf := hp

/-- A stand-alone run starts in a state of the invariant. -/
theorem State.standalone_inv {mem : Memory} {q : QueuePort} (hm : mem.wf = true)
    (hq : q.lastOut = q.history.getLast?) : (State.standalone mem q).Inv := by
  have hvm : ∀ (k : Nat) (v : Vm), (State.standalone mem q).vms[k]? = some v → v = Vm.start mem (.queue q) :=
    fun k v h => List.mem_singleton.1 (List.mem_of_getElem? h)
  refine ⟨List.cons_ne_nil _ _, fun k v h => ?_, fun k v h => ?_⟩
  · rw [hvm k v h]; exact Vm.start_inv hm (Port.wf_iff.2 hq)
  · rw [hvm k v h]; exact rfl

/-- `v'` is as good as `v`: it meets the invariant of one VM and sits in the topology wherever `v` does. -/
structure Vm.Keeps (v v' : Vm) : Prop where
  inv : v.Inv → v'.Inv
  wired : ∀ (n : Nat) (feedback : Bool) (k : Nat), v.port.wired n feedback k → v'.port.wired n feedback k

theorem Vm.Keeps.refl (v : Vm) : v.Keeps v := ⟨id, fun _ _ _ => id⟩

theorem Vm.Keeps.raise (v : Vm) (w : Word) (f : VmFault) : v.Keeps (v.raise w f) where
  inv := fun ⟨hip, hrb, hmem, hport⟩ => ⟨hip, hrb, hmem, hport⟩
  wired := fun _ _ _ => id

theorem Vm.Keeps.addInput (v : Vm) (x : Word) : v.Keeps { v with port := v.port.addInput x } where
  inv := fun ⟨hip, hrb, hmem, hport⟩ => ⟨hip, hrb, hmem, Port.addInput_wf x hport⟩
  wired := fun _ _ _ => (Port.addInput_wired v.port x).2

/-- Whatever an instruction does to the stepping VM keeps it: each field is checked before it is written. -/
theorem Changes.keeps {i : Instr} {v v' : Vm} (h : Changes i v v') : v.Keeps v' where
  inv := by
    rintro ⟨hip, hrb, hmem, hport⟩
    refine ⟨?ip, ?rb, ?mem, ?port⟩
    case ip =>
      obtain he | hle := h.ip
      · rwa [he]
      · exact hle
    case rb =>
      obtain he | ⟨-, hle⟩ := h.rb
      · rwa [he]
      · exact hle
    case mem =>
      obtain he | ⟨d, x, hd, he⟩ := h.mem
      · rwa [he]
      · rw [he]; exact Memory.write_wf hd hmem
    case port =>
      obtain he | ⟨quiet, x, ht⟩ | ⟨x, he⟩ | ⟨x, he⟩ := h.port
      · rwa [he]
      · exact Port.takeInput_wf ht hport
      · rw [he]; exact Port.record_wf v.port x
      · rw [he]; exact Port.addInput_wf x (Port.record_wf v.port x)
  wired := by
    intro n feedback k hw
    obtain he | ⟨quiet, x, ht⟩ | ⟨x, he⟩ | ⟨x, he⟩ := h.port
    · rwa [he]
    · exact (Port.takeInput_wired ht).2 hw
    · rw [he]; exact (Port.record_wired v.port x).2 hw
    · rw [he]; exact (Port.addInput_wired _ x).2 ((Port.record_wired v.port x).2 hw)

/-- A machine each of whose VMs is kept meets the invariant where the machine before did. -/
theorem State.Inv.of_keeps {s t : State} (hs : s.Inv) (hlen : t.vms.length = s.vms.length)
    (hfb : t.feedback = s.feedback)
    (hvms : ∀ (k : Nat) (u' : Vm), t.vms[k]? = some u' → ∃ u : Vm, s.vms[k]? = some u ∧ u.Keeps u') : t.Inv where
  vms_ne := by
    rw [← List.length_pos_iff, hlen]
    exact List.length_pos_iff.2 hs.vms_ne
  vm_inv := fun k u' hu' => by
    obtain ⟨u, hu, hk⟩ := hvms k u' hu'
    exact hk.inv (hs.vm_inv k u hu)
  topology := fun k u' hu' => by
    obtain ⟨u, hu, hk⟩ := hvms k u' hu'
    rw [hlen, hfb]
    exact hk.wired _ _ _ (hs.topology k u hu)

/-- A step of the stepping VM that keeps that VM keeps every VM: the others are as before or have got one more input. -/
theorem Touches.keeps {sends : Prop} {change : Vm → Vm → Prop} {s t : State} {v v' : Vm}
    (h : Touches sends change s t v v') (hc : v.Keeps v') {k : Nat} {u' : Vm} (hu' : t.vms[k]? = some u') :
    ∃ u : Vm, s.vms[k]? = some u ∧ u.Keeps u' := by
  by_cases hk : k = s.cur
  · subst hk
    obtain rfl : v' = u' := Option.some.inj (h.own.symm.trans hu')
    exact ⟨v, h.stepping.get, hc⟩
  · have hlt : k < s.vms.length := h.length ▸ (List.getElem?_eq_some_iff.1 hu').1
    have hu := List.getElem?_eq_getElem hlt
    refine ⟨_, hu, ?_⟩
    obtain he | ⟨-, -, x, he⟩ := h.others k _ hk hu
    · cases hu'.symm.trans he; exact .refl _
    · cases hu'.symm.trans he; exact .addInput _ x

theorem Touches.inv {sends : Prop} {change : Vm → Vm → Prop} {s t : State} {v v' : Vm}
    (h : Touches sends change s t v v') (hc : v.Keeps v') (hs : s.Inv) : t.Inv :=
  hs.of_keeps h.length h.feedback fun _ _ => h.keeps hc

theorem State.Inv.select {s : State} (hs : s.Inv) (k : Nat) : (s.select k).Inv :=
  ⟨hs.vms_ne, hs.vm_inv, hs.topology⟩

theorem State.Inv.reschedule {s : State} (hs : s.Inv) : s.reschedule.Inv :=
  ⟨hs.vms_ne, hs.vm_inv, hs.topology⟩

/-- The step of any one VM keeps the invariant, be it an instruction's or a decode fault. -/
theorem stepVm_inv {k : Nat} {s t : State} (hs : s.Inv) (h : stepVm k s = .next t) : t.Inv := by
  obtain ⟨v, v', -, ⟨i, -, -, ht⟩ | ⟨f, -, rfl, hv, rfl⟩⟩ := stepVm_next h
  · exact ht.inv ht.change.keeps (hs.select k)
  · have ht : Touches False Vm.Keeps (s.select k) ((s.select k).setVm (v.raise v.instrWord f)) v _ :=
      .setVm hv (.raise v v.instrWord f)
    exact ht.inv ht.change (hs.select k)

/-- Every network step, on any schedule, keeps the invariant. -/
theorem NetStep.inv {s t : State} (h : NetStep s t) (hs : s.Inv) : t.Inv := by
  obtain ⟨k, -, steps⟩ := h
  exact stepVm_inv hs steps

/-! ## What the host reads (R37, R210, R215) -/

theorem State.readMemory_of_not_over {s : State} (h : s.over = false) (k a : Nat) : s.readMemory k a = none := by
  simp [State.readMemory, h]

theorem State.readMemory_of_over {s : State} (h : s.over = true) (k : Nat) {a : Nat} (ha : a ≤ Config.addrMax) :
    s.readMemory k a = (s.vms[k]?).map fun v => v.mem.read a :=
  if_pos ⟨h, ha⟩

/-- A report shows a record, with `ip` and `rb`, exactly of a `Faulted` VM. -/
theorem Vm.report_fault_iff {v : Vm} {r : FaultRecord} {ip rb : Nat} :
    v.report.fault = some (r, ip, rb) ↔ v.st = .faulted r ∧ ip = v.ip ∧ rb = v.rb := by
  simp only [Vm.report, Option.map_eq_some_iff, RunState.record?_iff, Prod.mk.injEq]
  constructor
  · rintro ⟨r', hst, rfl, rfl, rfl⟩
    exact ⟨hst, rfl, rfl⟩
  · rintro ⟨hst, rfl, rfl⟩
    exact ⟨r, hst, rfl, rfl, rfl⟩

theorem State.not_over_of_running {s : State} (h : ∃ v ∈ s.vms, v.st = .running) : s.over = false := by
  obtain ⟨v, hv, hst⟩ := h
  exact Bool.eq_false_iff.2 fun hover => State.over_iff.1 hover v hv hst

end Sys2Proof.Machine

/-! ## The statements settled -/

namespace Sys2Proof.Proofs

open Sys2Proof Sys2Proof.Machine

/-- Settles O55: a step touches the stepping VM by `Changes` and another by one more input, and both keep a VM. -/
theorem stepKeepsTheInvariant : Obligations.StepKeepsTheInvariant := by
  intro s t hs h
  obtain ⟨u, hu, rfl⟩ := step_next h
  exact (hu.inv hs).reschedule

/-- Settles O26, by the frame of the shape the four instructions share. -/
theorem binaryFrame : Obligations.BinaryFrame := by
  intro s t i op a b dst hform h
  rw [exec_binary hform] at h
  obtain ⟨v, hv, rfl⟩ := onVm_next h
  obtain ⟨hrb, hport, hmem, hst⟩ := binary_frame op a b dst hv.running
  exact ⟨v, _, hv, rfl, hrb, hport, hmem.length, hmem.others, hmem.fault, hst⟩

/-- Settles O27: IN has taken a word and stores it, or starves. -/
theorem inFrame : Obligations.InFrame := by
  intro s t dst h
  obtain ⟨v, hv, ⟨x, p, hp, rfl⟩ | ⟨why, -, rfl⟩⟩ := execIn_next h
  · obtain ⟨hrb, hmem, hst⟩ := storeInput_frame dst x p hv.running
    obtain ⟨hpending, hout, hhist, hdown⟩ := Port.takeInput_value hp
    refine ⟨v, _, hv, rfl, hrb, ?_, ?_, ?_, .inr ⟨x, ?_⟩, hmem.length, hmem.others, hmem.fault, hst⟩ <;>
      rwa [storeInput_port]
  · have hmem := StoresOnly.same (destAddr v 1 dst) v.mem
    exact ⟨v, _, hv, rfl, rfl, rfl, rfl, rfl, .inl rfl, hmem.length, hmem.others, hmem.fault, v.raise_ne_halted _ _⟩

/-- Settles O28: OUT faults at its operand, or records, sends and advances. -/
theorem outFrame : Obligations.OutFrame := by
  intro s t a h
  obtain ⟨v, hv, ⟨f, -, rfl⟩ | ⟨x, -, hfb, hcur, hturn, hlen, hown, hothers⟩⟩ := execOut_next h
  · refine ⟨rfl, rfl, rfl, by simp, v, _, hv, State.setVm_get hv, rfl, rfl, v.raise_ne_halted _ f, rfl,
      fun _ => rfl, fun k u hk hu => ?_⟩
    have hsame := (State.setVm_get_ne (u := v.raise v.instrWord f) hk).trans hu
    exact ⟨fun _ => hsame, fun _ => .inl hsame⟩
  · obtain ⟨hmem, hrb, hst⟩ :=
      Vm.advance_frame (v := { v with port := v.port.written s.cur x }) v.instrWord 2 hv.running
    refine ⟨hfb, hcur, hturn, hlen, v, _, hv, hown, hmem, hrb, hst, ?_, fun hd => ?_, fun k u hk hu =>
      ⟨fun hd => ?_, fun hd => .inr ⟨x, ?_⟩⟩⟩
    · rw [advance_port]; exact Port.written_downstream _ _ _
    · rw [advance_port]; exact Port.written_pending x hd
    · rw [hothers k u hk hu, if_neg hd]
    · rw [hothers k u hk hu, if_pos hd]

/-- Settles O29: a jump, ARB and HLT each replace the stepping VM by one with its Memory and its port. -/
theorem jumpBaseHaltFrame : Obligations.JumpBaseHaltFrame := by
  intro s t i hi h
  obtain ⟨a, target, rfl⟩ | ⟨a, target, rfl⟩ | ⟨a, rfl⟩ | rfl := hi
  · obtain ⟨v, hv, rfl⟩ := onVm_next h
    obtain ⟨hmem, hport, hrb, hst⟩ := jumpIf_frame nonZero a target hv.running
    exact ⟨v, _, hv, rfl, hmem, hport, fun _ => hrb, nofun, fun hhalt => absurd hhalt hst⟩
  · obtain ⟨v, hv, rfl⟩ := onVm_next h
    obtain ⟨hmem, hport, hrb, hst⟩ := jumpIf_frame isZero a target hv.running
    exact ⟨v, _, hv, rfl, hmem, hport, fun _ => hrb, nofun, fun hhalt => absurd hhalt hst⟩
  · obtain ⟨v, hv, rfl⟩ := onVm_next h
    obtain ⟨hmem, hport, hst⟩ := adjustBase_frame a hv.running
    exact ⟨v, _, hv, rfl, hmem, hport, fun hne => absurd rfl (hne a), nofun, fun hhalt => absurd hhalt hst⟩
  · obtain ⟨v, hv, rfl⟩ := onVm_next h
    exact ⟨v, _, hv, rfl, rfl, rfl, fun _ => rfl, fun _ => rfl, fun _ => rfl⟩

/-- Settles O49: the inputs are appended to an empty queue. -/
theorem standaloneBootState : Obligations.StandaloneBootState := by
  refine ⟨fun program inputs => ?_, rfl⟩
  rw [State.boot, Port.addInputs_queue]
  rfl

/-- Settles O51: a canonical Memory reads back what was written. -/
theorem laterRunKeepsTheMemory : Obligations.LaterRunKeepsTheMemory :=
  fun _ a x _ hm => ⟨_, rfl, Memory.read_write_self a x hm, rfl, rfl, rfl, rfl⟩

/-- Settles O53: reset is the stand-alone start on the empty Memory and the empty queue port. -/
theorem invariantAtReset : Obligations.InvariantAtReset :=
  State.standalone_inv (q := QueuePort.empty) Memory.empty_wf rfl

/-- Settles O60: `over` is the join, and after it each look at VM `k` is a look at its fields. -/
theorem reportShowsWhatTheHostMayObserve : Obligations.ReportShowsWhatTheHostMayObserve := by
  intro s k
  refine ⟨fun hrun => ?before, fun hterminal v hv => ?after⟩
  case before =>
    have hover := State.not_over_of_running hrun
    exact ⟨State.report_of_not_over hover k, State.readMemory_of_not_over hover k⟩
  case after =>
    have hover := State.over_iff.2 hterminal
    refine ⟨fun a ha => ?_, v.report, ?_, rfl, rfl, rfl, fun _ _ _ => Vm.report_fault_iff⟩
    · rw [State.readMemory_of_over hover k ha, hv]; rfl
    · rw [State.report_of_over hover, hv]; rfl

end Sys2Proof.Proofs

/-! PROOFS of the memory statements (20_memory.md): reading and writing by address and by parameter, the fault of an
Immediate destination, and what a store shows to the next fetch. -/

namespace Sys2Proof

/-! ## The canonical word decodes (R71, R74, R90) -/

theorem modeOfDigit_digit (m : Mode) : modeOfDigit m.digit = some m := by cases m <;> rfl

theorem Mode.digit_le (m : Mode) : m.digit ≤ 2 := by cases m <;> decide

theorem Instr.opcode_lt (i : Instr) : i.opcode < 100 := by cases i <;> simp only [Instr.opcode] <;> decide

theorem instrOfOpcode_opcode (i : Instr) :
    instrOfOpcode i.opcode i.modes.1 i.modes.2.1 i.modes.2.2 = some i := by cases i <;> rfl

/-- A word in `0 .. 99999` decodes by its digits. -/
theorem decode_ofNat {n : Nat} (h : n ≤ 99999) : decode (BitVec.ofNat 64 n) = decodeDigits n := by
  have hn : (BitVec.ofNat 64 n).toInt = n := by
    rw [BitVec.toInt_ofNat']
    exact Int.bmod_eq_of_le (by omega) (by omega)
  rw [decode, hn, if_neg (by omega), Int.toNat_natCast]

/-- The digits of a word made of fields are the fields. -/
theorem decodeDigits_wordOfFields {op : Nat} (h : op < 100) (m1 m2 m3 : Mode) {i : Instr}
    (hi : instrOfOpcode op m1 m2 m3 = some i) : decodeDigits (wordOfFields op m1 m2 m3) = .decoded i := by
  have hm1 := m1.digit_le
  have hm2 := m2.digit_le
  have hm3 := m3.digit_le
  have h1 : dig 2 (wordOfFields op m1 m2 m3) = m1.digit := by simp only [dig, wordOfFields]; omega
  have h2 : dig 3 (wordOfFields op m1 m2 m3) = m2.digit := by simp only [dig, wordOfFields]; omega
  have h3 : dig 4 (wordOfFields op m1 m2 m3) = m3.digit := by simp only [dig, wordOfFields]; omega
  have hop : wordOfFields op m1 m2 m3 % 100 = op := by simp only [wordOfFields]; omega
  simp only [decodeDigits, h1, h2, h3, hop, modeOfDigit_digit, hi]

theorem wordOfFields_le {op : Nat} (h : op < 100) (m1 m2 m3 : Mode) : wordOfFields op m1 m2 m3 ≤ 99999 := by
  have hm1 := m1.digit_le
  have hm2 := m2.digit_le
  have hm3 := m3.digit_le
  simp only [wordOfFields]
  omega

theorem decode_encode (i : Instr) : decode (encode i) = .decoded i := by
  rw [encode, decode_ofNat (wordOfFields_le i.opcode_lt ..)]
  exact decodeDigits_wordOfFields i.opcode_lt _ _ _ (instrOfOpcode_opcode i)

end Sys2Proof

namespace Sys2Proof.Machine

/-! ## Memory (R41, R44, R45) -/

/-- What a canonical Memory reads after a write. -/
theorem Memory.read_write {m : Memory} (a : Nat) (x : Word) (h : m.wf = true) (b : Nat) :
    (m.write a x).read b = if b = a then x else m.read b := by
  split
  · next hb => rw [hb, Memory.read_write_self a x h]
  · next hb => exact m.read_write_ne x hb

/-! ## Parameters (R47, R48, R49) -/

section Parameters

variable {v : Vm} {k : Nat}

/-- The parameter word, where `ip + k` is an address. -/
theorem param_of_le (h : v.ip + k ≤ Config.addrMax) : param v k = .ok (v.mem.read (v.ip + k)) :=
  memRead_nat h

theorem param_of_gt (h : Config.addrMax < v.ip + k) : param v k = .error (.addressRangeFault (v.ip + k)) :=
  memRead_error.2 ⟨.inr (by omega), rfl⟩

theorem rd_of_param_error {f : VmFault} (m : Mode) (h : param v k = .error f) : rd v k m = .error f := by
  simp only [rd, h]

theorem rd_immediate (h : v.ip + k ≤ Config.addrMax) : rd v k .immediate = .ok (v.mem.read (v.ip + k)) := by
  simp only [rd, param_of_le h]

theorem rd_position (h : v.ip + k ≤ Config.addrMax) :
    rd v k .position = memRead v.mem (v.mem.read (v.ip + k)).toInt := by
  simp only [rd, param_of_le h]

theorem rd_relative (h : v.ip + k ≤ Config.addrMax) :
    rd v k .relative = memRead v.mem ((v.mem.read (v.ip + k)).toInt + v.rb) := by
  simp only [rd, param_of_le h]

/-- Reading a parameter raises no other fault. -/
theorem rd_error_range {m : Mode} {f : VmFault} (h : rd v k m = .error f) : ∃ a : Int, f = .addressRangeFault a := by
  obtain hk | hk := Nat.lt_or_ge Config.addrMax (v.ip + k)
  · rw [rd_of_param_error m (param_of_gt hk)] at h
    cases h
    exact ⟨_, rfl⟩
  · cases m with
    | immediate => rw [rd_immediate hk] at h; cases h
    | position => rw [rd_position hk] at h; exact ⟨_, (memRead_error.1 h).2⟩
    | relative => rw [rd_relative hk] at h; exact ⟨_, (memRead_error.1 h).2⟩

theorem destAddr_immediate (v : Vm) (k : Nat) : destAddr v k .immediate = .error (.invalidWriteTarget (v.ip + k)) := rfl

theorem destAddr_of_param_error {m : Mode} {f : VmFault} (hm : m ≠ .immediate) (h : param v k = .error f) :
    destAddr v k m = .error f := by
  cases m with
  | immediate => exact absurd rfl hm
  | position => simp only [destAddr, h]
  | relative => simp only [destAddr, h]

theorem destAddr_position (h : v.ip + k ≤ Config.addrMax) :
    destAddr v k .position = checkAddr (v.mem.read (v.ip + k)).toInt := by
  simp only [destAddr, param_of_le h]

theorem destAddr_relative (h : v.ip + k ≤ Config.addrMax) :
    destAddr v k .relative = checkAddr ((v.mem.read (v.ip + k)).toInt + v.rb) := by
  simp only [destAddr, param_of_le h]

end Parameters

/-! ## Instructions that store (R100, R101, R110, R111, R130) -/

theorem Vm.advance_of_le {v : Vm} (w : Word) {width : Nat} (h : v.ip + width ≤ Config.addrMax) :
    v.advance w width = { v with ip := v.ip + width } := by
  obtain ⟨-, he⟩ | ⟨hlt, -⟩ := v.advance_cases w width
  · exact he
  · omega

section Storing

variable {v : Vm} {dst : Mode}

theorem binary_of_destAddr_ok (op : Word → Word → Word) {a b : Mode} {x y : Word} {d : Nat}
    (ha : rd v 1 a = .ok x) (hb : rd v 2 b = .ok y) (hd : destAddr v 3 dst = .ok d)
    (hip : v.ip + 4 ≤ Config.addrMax) :
    binary op a b dst v = { v with mem := v.mem.write d (op x y), ip := v.ip + 4 } := by
  simp only [binary, Vm.orRaise, ha, hb, wr_ok.2 ⟨d, hd, rfl⟩]
  exact Vm.advance_of_le _ hip

theorem binary_of_destAddr_error (op : Word → Word → Word) {a b : Mode} {x y : Word} {f : VmFault}
    (ha : rd v 1 a = .ok x) (hb : rd v 2 b = .ok y) (hd : destAddr v 3 dst = .error f) :
    binary op a b dst v = v.raise v.instrWord f := by
  simp only [binary, Vm.orRaise, ha, hb, wr_error.2 hd]

theorem storeInput_of_destAddr_ok (x : Word) (p : Port) {d : Nat} (hd : destAddr v 1 dst = .ok d)
    (hip : v.ip + 2 ≤ Config.addrMax) :
    storeInput dst x p v = { v with port := p, mem := v.mem.write d x, ip := v.ip + 2 } := by
  simp only [storeInput, Vm.orRaise, wr_ok.2 ⟨d, hd, rfl⟩]
  exact Vm.advance_of_le _ hip

theorem storeInput_of_destAddr_error (x : Word) (p : Port) {f : VmFault} (hd : destAddr v 1 dst = .error f) :
    storeInput dst x p v = Vm.raise { v with port := p } v.instrWord f := by
  simp only [storeInput, Vm.orRaise, wr_error.2 hd]

end Storing

/-- IN on a port that has a word to give takes it and stores it. -/
theorem exec_inp_of_value {s : State} {v : Vm} {x : Word} {p : Port} (dst : Mode) (hs : s.Stepping v)
    (h : v.port.takeInput s.quiescent = .value x p) :
    exec (.inp dst) s = .next (s.setVm (storeInput dst x p v)) := by
  show execIn dst s = _
  simp only [execIn, onRunning_eq hs, h]

/-- A port of either kind gives the first word that waits. -/
theorem Port.takeInput_of_pending {p : Port} {x : Word} {rest : List Word} (quiet : Bool) (h : p.pending = x :: rest) :
    ∃ p' : Port, p.takeInput quiet = .value x p' := by
  obtain ⟨y, p', ht, hp, -⟩ | ⟨hp, -⟩ | ⟨hp, -⟩ := p.takeInput_cases quiet
  · cases h.symm.trans hp
    exact ⟨p', ht⟩
  · cases h.symm.trans hp
  · cases h.symm.trans hp

/-- The width of the F3 instructions (R70). -/
theorem width_of_binaryForm {i : Instr} {op : Word → Word → Word} {a b dst : Mode}
    (h : binaryForm i = some (op, a, b, dst)) : i.width = 4 := by
  cases i <;> cases h <;> rfl

theorem Mode.eq_immediate_of_not_writable {m : Mode} (h : m.writable = false) : m = .immediate := by
  cases m with
  | immediate => rfl
  | position => cases h
  | relative => cases h

/-- An F3 instruction is ill-formed only by an Immediate destination (R46, R86). -/
theorem dst_of_illFormed_binary {i : Instr} {op : Word → Word → Word} {a b dst : Mode}
    (h : binaryForm i = some (op, a, b, dst)) (hi : i.wellFormed = false) : dst = .immediate := by
  cases i <;> cases h <;> exact Mode.eq_immediate_of_not_writable hi

/-- What a fetch reads in a VM whose canonical Memory has had one word stored (R50, R60). -/
theorem instrWord_of_write {v v' : Vm} {d : Nat} {x : Word} (hwf : v.mem.wf = true) (h : v'.mem = v.mem.write d x)
    (n : Nat) : Vm.instrWord { v' with ip := n } = if n = d then x else Vm.instrWord { v with ip := n } := by
  simp only [Vm.instrWord, h]
  exact Memory.read_write d x hwf n

end Sys2Proof.Machine

/-! ## The statements settled -/

namespace Sys2Proof.Proofs

open Sys2Proof Sys2Proof.Machine

/-- Settles O6, by the laws of `Memory.write`. -/
theorem storedWordReadsBackAlone : Obligations.StoredWordReadsBackAlone :=
  fun m a x h => ⟨Memory.read_write_self a x h, fun _ hb => m.read_write_ne x hb, m.write_length a x⟩

/-- Settles O7: the address check decides. -/
theorem memReadChecksItsAddress : Obligations.MemReadChecksItsAddress := by
  refine fun m a => ⟨fun n ha hn => ?valid, fun ha => ?invalid⟩
  case valid => rw [ha, memRead_nat hn]
  case invalid => exact memRead_error.2 ⟨ha, rfl⟩

/-- Settles O8, one equation of `rd` per mode. -/
theorem readParameterByMode : Obligations.ReadParameterByMode := by
  refine fun v k m => ⟨fun hk => rd_of_param_error m (param_of_gt hk), fun hk => ⟨?_, ?_, ?_⟩,
    fun _ => rd_error_range⟩
  · rintro rfl; exact rd_immediate hk
  · rintro rfl; exact rd_position hk
  · rintro rfl; exact rd_relative hk

/-- Settles O9: `wr` stores or faults as its destination address does. -/
theorem writeTargetByMode : Obligations.WriteTargetByMode := by
  intro v k x
  refine ⟨⟨rfl, rfl⟩, fun m hm hk => ?parameter, fun m e hk he => ?effective⟩
  case parameter =>
    have hd := destAddr_of_param_error hm (param_of_gt hk)
    exact ⟨hd, wr_error.2 hd⟩
  case effective =>
    have hd : destAddr v k m = checkAddr e := by
      obtain ⟨rfl, rfl⟩ | ⟨rfl, rfl⟩ := he
      · exact destAddr_position hk
      · exact destAddr_relative hk
    refine ⟨fun h0 hmax => ?valid, fun hout => ?invalid⟩
    case valid =>
      have hok : destAddr v k m = .ok e.toNat := hd.trans (checkAddr_ok.2
        ⟨(Int.toNat_of_nonneg h0).symm, Int.toNat_le.2 hmax⟩)
      exact ⟨hok, wr_ok.2 ⟨_, hok, rfl⟩⟩
    case invalid =>
      have herr : destAddr v k m = .error (.addressRangeFault e) := hd.trans (checkAddr_error.2 ⟨hout, rfl⟩)
      exact ⟨herr, wr_error.2 herr⟩

/-- Settles O24: an ill-formed instruction has an Immediate destination, whose address faults. -/
theorem illFormedRaisesInvalidWriteTarget : Obligations.IllFormedRaisesInvalidWriteTarget := by
  intro s v i hi hs
  refine ⟨decode_encode i, ?binary, ?input⟩
  case binary =>
    intro op a b dst x y hform ha hb
    obtain rfl := dst_of_illFormed_binary hform hi
    rw [exec_binary hform, onVm_eq hs, binary_of_destAddr_error op ha hb (destAddr_immediate v 3)]
    rfl
  case input =>
    rintro dst x p rfl hp
    obtain rfl := Mode.eq_immediate_of_not_writable hi
    rw [exec_inp_of_value _ hs hp, storeInput_of_destAddr_error x p (destAddr_immediate v 1)]
    rfl

/-- Settles O34: the instruction has stored one word and advanced by its own width, and a fetch is a read. -/
theorem storeIsSeenByTheNextFetch : Obligations.StoreIsSeenByTheNextFetch := by
  refine ⟨?binary, ?input⟩
  case binary =>
    intro s v i op a b dst x y d hform hs hwf ha hb hd hip
    rw [exec_binary hform, onVm_eq hs, binary_of_destAddr_ok op ha hb hd hip, width_of_binaryForm hform]
    exact ⟨_, rfl, rfl, instrWord_of_write hwf rfl⟩
  case input =>
    intro s v dst x rest d hs hwf hpending hd hip
    obtain ⟨p, hp⟩ := Port.takeInput_of_pending s.quiescent hpending
    rw [exec_inp_of_value dst hs hp, storeInput_of_destAddr_ok x p hd hip]
    exact ⟨_, rfl, rfl, instrWord_of_write hwf rfl⟩

end Sys2Proof.Proofs

/-! PROOFS of the encoding statements (30_encoding.md): a word of the form R71 decodes to its fields, every other word is refused
by name, and a refused word's step changes `st` alone. -/

namespace Sys2Proof

/-! ## The parts of the decoder (R72, R80) -/

theorem modeOfDigit_of_ge {d : Nat} (h : 3 ≤ d) : modeOfDigit d = none := by
  match d, h with
  | _ + 3, _ => rfl

theorem exists_modeOfDigit_of_le {d : Nat} (h : d ≤ 2) : ∃ m, modeOfDigit d = some m := by
  match d, h with
  | 0, _ => exact ⟨.position, rfl⟩
  | 1, _ => exact ⟨.immediate, rfl⟩
  | 2, _ => exact ⟨.relative, rfl⟩

/-- The opcodes of the map are the ten of R80. -/
theorem instrOfOpcode_of_notMem {op : Nat} (h : op ∉ [1, 2, 3, 4, 5, 6, 7, 8, 9, 99]) (m1 m2 m3 : Mode) :
    instrOfOpcode op m1 m2 m3 = none := by
  unfold instrOfOpcode
  split
  case h_11 => rfl
  all_goals exact absurd (by decide) h

/-! ## The decoder in and out of the range `0 .. 99999` (R73, R74, R75) -/

section Decoding

variable {w : Word} {n : Nat}

theorem decode_of_outOfRange (h : w.toInt < 0 ∨ 99999 < w.toInt) : decode w = .decodeError := if_pos h

theorem decode_of_toInt (hw : w.toInt = n) (h : n ≤ 99999) : decode w = decodeDigits n := by
  rw [decode, hw, if_neg (by omega), Int.toNat_natCast]

/-- A word made of an opcode and three modes decodes to what the opcode map gives for them (R71, R80). -/
theorem decode_of_fields {op : Nat} {m1 m2 m3 : Mode} {i : Instr}
    (hw : w.toInt = op + 100 * m1.digit + 1000 * m2.digit + 10000 * m3.digit) (hop : op < 100)
    (hi : instrOfOpcode op m1 m2 m3 = some i) : decode w = .decoded i := by
  have hfields : w.toInt = wordOfFields op m1 m2 m3 := by simp [hw, wordOfFields]
  rw [decode_of_toInt hfields (wordOfFields_le hop m1 m2 m3), decodeDigits_wordOfFields hop m1 m2 m3 hi]

/-- Every mode digit is validated, whatever the opcode (decision D6). -/
theorem decodeDigits_of_badDigit (h : 3 ≤ dig 2 n ∨ 3 ≤ dig 3 n ∨ 3 ≤ dig 4 n) : decodeDigits n = .decodeError := by
  unfold decodeDigits
  split
  · next h1 h2 h3 => obtain h | h | h := h <;> simp_all [modeOfDigit_of_ge h]
  · rfl

theorem decodeDigits_of_unknownOpcode (h1 : dig 2 n ≤ 2) (h2 : dig 3 n ≤ 2) (h3 : dig 4 n ≤ 2)
    (hop : n % 100 ∉ [1, 2, 3, 4, 5, 6, 7, 8, 9, 99]) : decodeDigits n = .unknownOpcode := by
  obtain ⟨m1, hm1⟩ := exists_modeOfDigit_of_le h1
  obtain ⟨m2, hm2⟩ := exists_modeOfDigit_of_le h2
  obtain ⟨m3, hm3⟩ := exists_modeOfDigit_of_le h3
  simp only [decodeDigits, hm1, hm2, hm3, instrOfOpcode_of_notMem hop]

end Decoding

end Sys2Proof

namespace Sys2Proof.Machine

/-! ## The step at a word that does not decode (R83, R84, R85) -/

/-- A `Running` VM at a word that does not decode raises the fault of that name. -/
theorem stepVm_of_decodeFault {s : State} {k : Nat} {v : Vm} {f : VmFault} (hv : s.vms[k]? = some v) (hr : v.st = .running)
    (hip : v.ip ≤ Config.addrMax)
    (hd : decode v.instrWord = .decodeError ∧ f = .decodeError ∨
      decode v.instrWord = .unknownOpcode ∧ f = .unknownOpcode) :
    stepVm k s = .next ((s.select k).setVm (v.raise v.instrWord f)) := by
  have hs : (s.select k).Stepping v := ⟨hv, hr⟩
  rw [stepVm, fetchAndRun_eq hs hip]
  obtain ⟨hd, rfl⟩ | ⟨hd, rfl⟩ := hd <;> rw [hd]

end Sys2Proof.Machine

/-! ## The statements settled -/

namespace Sys2Proof.Proofs

open Sys2Proof Sys2Proof.Machine

/-- Settles O1: the digits of a canonical word are the fields it was made of. -/
theorem decodeEncodeRoundTrip : Obligations.DecodeEncodeRoundTrip := decode_encode

/-- Settles O2: the opcode map answers for each of the ten opcodes, dropping the modes it does not have. -/
theorem decodeReadsEveryField : Obligations.DecodeReadsEveryField := by
  intro w m1 m2 m3 op hw
  refine ⟨?_, ?_, ?_, ?_, ?_, ?_, ?_, ?_, ?_, ?_⟩ <;>
    · rintro rfl
      exact decode_of_fields hw (by decide) rfl

/-- Settles O3: the range is checked first, then the mode digits, then the opcode. -/
theorem otherWordsAreRefusedByName : Obligations.OtherWordsAreRefusedByName := by
  refine fun w => ⟨decode_of_outOfRange, fun h0 hmax => ?inRange⟩
  have hdecode := decode_of_toInt (Int.toNat_of_nonneg h0).symm (Int.toNat_le.2 hmax)
  exact ⟨fun hbad => hdecode.trans (decodeDigits_of_badDigit hbad),
    fun h1 h2 h3 hop => hdecode.trans (decodeDigits_of_unknownOpcode h1 h2 h3 hop)⟩

/-- Settles O31: the step raises the fault that the decoder names. -/
theorem decodeFaultsChangeOnlyTheRunState : Obligations.DecodeFaultsChangeOnlyTheRunState := by
  rintro s k v w hv hr hip rfl
  refine ⟨fun hout => ?range, fun n hn hmax => ⟨fun hbad => ?digit, fun h1 h2 h3 hop => ?opcode, fun hw => ?zero⟩⟩
  case range => exact stepVm_of_decodeFault hv hr hip (.inl ⟨decode_of_outOfRange hout, rfl⟩)
  case digit =>
    have hd := (decode_of_toInt hn hmax).trans (decodeDigits_of_badDigit hbad)
    exact stepVm_of_decodeFault hv hr hip (.inl ⟨hd, rfl⟩)
  case opcode =>
    have hd := (decode_of_toInt hn hmax).trans (decodeDigits_of_unknownOpcode h1 h2 h3 hop)
    exact stepVm_of_decodeFault hv hr hip (.inr ⟨hd, rfl⟩)
  case zero =>
    obtain rfl : n = 0 := by simpa [hw, eq_comm] using hn
    decide

/-- Settles O4: the decoder runs on each of the nine words. -/
theorem wordsOfTheSpecDecode : Obligations.WordsOfTheSpecDecode := by
  unfold Obligations.WordsOfTheSpecDecode
  decide

end Sys2Proof.Proofs

/-! PROOFS of the arithmetic statements (40_arithmetic.md): what ADD and MUL store, and in which order the four instructions of
format F3 fault. -/

namespace Sys2Proof.Machine

/-! ## The shape of format F3, one equation per way it ends (R100, R101, R110, R111, R120, R176) -/

theorem Vm.advance_of_gt {v : Vm} (w : Word) {width : Nat} (h : Config.addrMax < v.ip + width) :
    v.advance w width = v.raise w (.addressRangeFault (v.ip + width)) := by
  obtain ⟨hle, -⟩ | ⟨-, he⟩ := v.advance_cases w width
  · omega
  · exact he

section Faulting

variable {v : Vm} {a : Mode} (op : Word → Word → Word)

theorem binary_of_rd_first_error {f : VmFault} (b dst : Mode) (ha : rd v 1 a = .error f) :
    binary op a b dst v = v.raise v.instrWord f := by
  simp only [binary, Vm.orRaise, ha]

theorem binary_of_rd_second_error {b : Mode} {x : Word} {f : VmFault} (dst : Mode) (ha : rd v 1 a = .ok x)
    (hb : rd v 2 b = .error f) : binary op a b dst v = v.raise v.instrWord f := by
  simp only [binary, Vm.orRaise, ha, hb]

/-- An advance past the top faults after the store, which stays done (R171). -/
theorem binary_of_advance_error {b dst : Mode} {x y : Word} {d : Nat} (ha : rd v 1 a = .ok x) (hb : rd v 2 b = .ok y)
    (hd : destAddr v 3 dst = .ok d) (hip : Config.addrMax < v.ip + 4) :
    binary op a b dst v =
      Vm.raise { v with mem := v.mem.write d (op x y) } v.instrWord (.addressRangeFault (v.ip + 4)) := by
  simp only [binary, Vm.orRaise, ha, hb, wr_ok.2 ⟨d, hd, rfl⟩]
  exact Vm.advance_of_gt _ hip

end Faulting

/-- An F3 instruction that completes stores its value and advances by 4, and nothing else is changed. -/
theorem exec_binary_of_ok {s : State} {v : Vm} {i : Instr} {op : Word → Word → Word} {a b dst : Mode} {x y : Word}
    {d : Nat} (h : binaryForm i = some (op, a, b, dst)) (hs : s.Stepping v) (ha : rd v 1 a = .ok x)
    (hb : rd v 2 b = .ok y) (hd : destAddr v 3 dst = .ok d) (hip : v.ip + 4 ≤ Config.addrMax) :
    exec i s = .next (s.setVm { v with mem := v.mem.write d (op x y), ip := v.ip + 4 }) := by
  rw [exec_binary h, onVm_eq hs, binary_of_destAddr_ok op ha hb hd hip]

end Sys2Proof.Machine

/-! ## The statements settled -/

namespace Sys2Proof.Proofs

open Sys2Proof Sys2Proof.Machine

/-- Settles O11: ADD completes as its format does, and the word it stores is the wrapped sum. -/
theorem addStoresTheWrappedSum : Obligations.AddStoresTheWrappedSum :=
  fun _ _ _ _ _ x y _ hs ha hb hd hip =>
    ⟨addValue x y, wrap64_toInt (x.toInt + y.toInt), exec_binary_of_ok rfl hs ha hb hd hip⟩

/-- Settles O12: MUL completes as its format does, and the word it stores is the wrapped product. -/
theorem mulStoresTheWrappedProduct : Obligations.MulStoresTheWrappedProduct :=
  fun _ _ _ _ _ x y _ hs ha hb hd hip =>
    ⟨mulValue x y, wrap64_toInt (x.toInt * y.toInt), exec_binary_of_ok rfl hs ha hb hd hip⟩

/-- Settles O19: the first action that fails raises its fault, and only the advance comes after the store. -/
theorem binaryFaultsInOrder : Obligations.BinaryFaultsInOrder := by
  intro s v i op a b dst hform hs
  rw [exec_binary hform, onVm_eq hs]
  refine ⟨fun f ha => ?first, fun x f ha hb => ?second, fun x y f ha hb hd => ?destination,
    fun x y d ha hb hd hip => ?advance⟩
  case first => rw [binary_of_rd_first_error op b dst ha]; rfl
  case second => rw [binary_of_rd_second_error op dst ha hb]; rfl
  case destination => rw [binary_of_destAddr_error op ha hb hd]; rfl
  case advance => rw [binary_of_advance_error op ha hb hd hip]; rfl

end Sys2Proof.Proofs

/-! PROOFS of the comparison statements (41_compare.md): LT and EQ compare signed values and store exactly 1 or 0. -/

namespace Sys2Proof.Machine

/-! ## The values of the comparisons (R110, R111, R112) -/

section Comparing

variable {x y : Word}

theorem ltValue_toInt_of_lt (h : x.toInt < y.toInt) : (ltValue x y).toInt = 1 := by
  rw [ltValue, if_pos h]; rfl

theorem ltValue_toInt_of_not_lt (h : ¬ x.toInt < y.toInt) : (ltValue x y).toInt = 0 := by
  rw [ltValue, if_neg h]; rfl

theorem eqValue_toInt_of_eq (h : x.toInt = y.toInt) : (eqValue x y).toInt = 1 := by
  rw [eqValue, if_pos h]; rfl

theorem eqValue_toInt_of_ne (h : x.toInt ≠ y.toInt) : (eqValue x y).toInt = 0 := by
  rw [eqValue, if_neg h]; rfl

end Comparing

end Sys2Proof.Machine

/-! ## The statements settled -/

namespace Sys2Proof.Proofs

open Sys2Proof Sys2Proof.Machine

/-- Settles O13: LT and EQ complete as their format does, and the word each stores is 1 where its signed test holds and 0
elsewhere. -/
theorem comparisonsStoreOneOrZero : Obligations.ComparisonsStoreOneOrZero := by
  intro s v a b dst x y d hs ha hb hd hip
  constructor
  case left => exact ⟨ltValue x y, ltValue_toInt_of_lt, ltValue_toInt_of_not_lt, exec_binary_of_ok rfl hs ha hb hd hip⟩
  case right => exact ⟨eqValue x y, eqValue_toInt_of_eq, eqValue_toInt_of_ne, exec_binary_of_ok rfl hs ha hb hd hip⟩

end Sys2Proof.Proofs

/-! PROOFS of the control statements (42_control.md): where the jumps go and how they fault, HLT, the step of one VM around its
instruction, and that a machine with a `Running` VM always steps. -/

namespace Sys2Proof.Machine

/-! ## The tests of the jumps (R121, R122) -/

@[simp] theorem nonZero_eq_true {x : Word} : nonZero x = true ↔ x.toInt ≠ 0 := by simp [nonZero]

@[simp] theorem nonZero_eq_false {x : Word} : nonZero x = false ↔ x.toInt = 0 := by simp [nonZero]

@[simp] theorem isZero_eq_true {x : Word} : isZero x = true ↔ x.toInt = 0 := by simp [isZero]

@[simp] theorem isZero_eq_false {x : Word} : isZero x = false ↔ x.toInt ≠ 0 := by simp [isZero]

/-! ## Setting `ip` to the value of a word (R120) -/

/-- Every non-negative word is an address, so such a target never faults. -/
theorem Vm.setIp_of_toInt (v : Vm) (w : Word) {t : Word} {n : Nat} (h : t.toInt = n) :
    v.setIp w t.toInt = { v with ip := n } := by
  have hmax : t.toInt < 2 ^ 63 := BitVec.toInt_lt
  obtain ⟨m, hm, -, he⟩ | ⟨hout, -⟩ := v.setIp_cases w t.toInt
  · obtain rfl : n = m := by omega
    exact he
  · rw [Config.addrMax] at hout
    omega

theorem Vm.setIp_of_neg (v : Vm) (w : Word) {t : Int} (h : t < 0) :
    v.setIp w t = v.raise w (.addressRangeFault t) := by
  obtain ⟨n, hn, -, -⟩ | ⟨-, he⟩ := v.setIp_cases w t
  · omega
  · exact he

/-! ## The shape of the jumps, one equation per way they end (R121, R122, R176) -/

section Jumping

variable {v : Vm} {test : Word → Bool} {a target : Mode} {x t : Word} {f : VmFault}

theorem jumpIf_of_rd_first_error (ha : rd v 1 a = .error f) : jumpIf test a target v = v.raise v.instrWord f := by
  simp only [jumpIf, Vm.orRaise, ha]

theorem jumpIf_of_rd_second_error (ha : rd v 1 a = .ok x) (ht : rd v 2 target = .error f) :
    jumpIf test a target v = v.raise v.instrWord f := by
  simp only [jumpIf, Vm.orRaise, ha, ht]

theorem jumpIf_of_taken (ha : rd v 1 a = .ok x) (ht : rd v 2 target = .ok t) (hx : test x = true) :
    jumpIf test a target v = v.setIp v.instrWord t.toInt := by
  simp only [jumpIf, Vm.orRaise, ha, ht, hx, if_true]

theorem jumpIf_of_not_taken (ha : rd v 1 a = .ok x) (ht : rd v 2 target = .ok t) (hx : test x = false) :
    jumpIf test a target v = v.advance v.instrWord 3 := by
  simp only [jumpIf, Vm.orRaise, ha, ht, hx, Bool.false_eq_true, if_false]

end Jumping

section ExecutingJumps

variable {s : State} {v : Vm} {i : Instr} {test : Word → Bool} {a target : Mode} {x t : Word}

/-- A taken jump goes to its target, and nothing else is changed. -/
theorem exec_jump_of_taken (h : jumpForm i = some (test, a, target)) (hs : s.Stepping v) (ha : rd v 1 a = .ok x)
    (ht : rd v 2 target = .ok t) (hx : test x = true) {n : Nat} (hn : t.toInt = n) :
    exec i s = .next (s.setVm { v with ip := n }) := by
  rw [exec_jump h, onVm_eq hs, jumpIf_of_taken ha ht hx, Vm.setIp_of_toInt v _ hn]

/-- A jump not taken goes on by its width, and nothing else is changed. -/
theorem exec_jump_of_not_taken (h : jumpForm i = some (test, a, target)) (hs : s.Stepping v) (ha : rd v 1 a = .ok x)
    (ht : rd v 2 target = .ok t) (hx : test x = false) (hip : v.ip + 3 ≤ Config.addrMax) :
    exec i s = .next (s.setVm { v with ip := v.ip + 3 }) := by
  rw [exec_jump h, onVm_eq hs, jumpIf_of_not_taken ha ht hx, Vm.advance_of_le _ hip]

end ExecutingJumps

/-! ## The step of one VM, and the machine's step around it (R126, R202) -/

/-- A `Running` VM whose word decodes runs that instruction. -/
theorem stepVm_of_decoded {s : State} {k : Nat} {v : Vm} {i : Instr} (hv : s.vms[k]? = some v) (hr : v.st = .running)
    (hip : v.ip ≤ Config.addrMax) (hd : decode v.instrWord = .decoded i) : stepVm k s = exec i (s.select k) := by
  have hs : (s.select k).Stepping v := ⟨hv, hr⟩
  rw [stepVm, fetchAndRun_eq hs hip, hd]

/-- The machine's step follows the step of the VM it chose. -/
theorem step_of_chosen {s t : State} {k : Nat} (hk : s.chosen = some k) (ht : stepVm k s = .next t) :
    step s = .next t.reschedule := by
  simp only [step, networkStep, hk, ht]

/-- The VM that steps and becomes `Faulted` kept its `ip`, and its record names that `ip` and the word there. -/
theorem stepVm_faulted {s t : State} {k : Nat} {v v' : Vm} {r : FaultRecord} (hv : s.vms[k]? = some v)
    (h : stepVm k s = .next t) (hv' : t.vms[k]? = some v') (hr : v'.st = .faulted r) :
    v'.ip = v.ip ∧ r.ip = v.ip ∧ r.word = v.instrWord := by
  obtain ⟨u, u', -, ⟨i, -, -, ht⟩ | ⟨f, -, rfl, hu, rfl⟩⟩ := stepVm_next h
  case inl =>
    obtain rfl : v = u := Option.some.inj (hv.symm.trans ht.stepping.get)
    obtain rfl : v' = u' := Option.some.inj (hv'.symm.trans ht.own)
    exact ht.change.faulted r hr
  case inr =>
    obtain rfl : v = u := Option.some.inj (hv.symm.trans hu.get)
    obtain rfl : v' = v.raise v.instrWord f := Option.some.inj (hv'.symm.trans (State.setVm_get hu))
    cases hr
    exact ⟨rfl, rfl, rfl⟩

/-! ## Blocked VMs (R126, R141, R142, R205) -/

/-- Receiving from an empty inbox waits, or starves in a quiescent network. -/
theorem Port.takeInput_of_waiting {p : Port} (quiet : Bool) (h : p.waiting = true) :
    p.takeInput quiet = if quiet then .starved .timedOut else .wait := by
  obtain ⟨c, rfl, hc⟩ := Port.waiting_iff.1 h
  simp only [Port.takeInput, hc]

/-- What the step of a blocked VM comes to: its starvation fault in a quiescent network, elsewhere no step. -/
theorem stepVm_of_blocked {s : State} {k : Nat} {v : Vm} (hv : s.vms[k]? = some v) (hb : v.blocked = true)
    (hip : v.ip ≤ Config.addrMax) :
    stepVm k s =
      if s.quiescent then .next ((s.select k).setVm (v.raise v.instrWord (.inputStarvation .timedOut)))
      else .fault .blocked := by
  obtain ⟨hr, ⟨dst, hd⟩, hw⟩ := Vm.blocked_iff.1 hb
  have hs : (s.select k).Stepping v := ⟨hv, hr⟩
  rw [stepVm_of_decoded hv hr hip hd]
  show execIn dst (s.select k) = _
  rw [execIn, onRunning_eq hs, Port.takeInput_of_waiting _ hw, State.select_quiescent]
  cases s.quiescent <;> rfl

theorem Vm.not_enabled_of_blocked {v : Vm} (h : v.blocked = true) : v.enabled = false := by simp [Vm.enabled, h]

/-- While the network is not quiescent a blocked VM is no candidate. -/
theorem State.not_mem_candidates_of_blocked {s : State} {k : Nat} {v : Vm} (hv : s.vms[k]? = some v)
    (hb : v.blocked = true) (hq : s.quiescent = false) : k ∉ s.candidates := by
  intro hk
  obtain ⟨u, hu, he | ⟨hq', -⟩⟩ := State.mem_candidates.1 hk
  · obtain rfl : v = u := Option.some.inj (hv.symm.trans hu)
    cases he.symm.trans (Vm.not_enabled_of_blocked hb)
  · cases hq'.symm.trans hq

/-! ## Progress (R126, R203, R205, R206) -/

/-- A network with a `Running` VM has a candidate: an enabled VM if there is one, else every `Running` VM is blocked and the
network is quiescent. -/
theorem State.exists_candidate_of_running {s : State} (h : ∃ v ∈ s.vms, v.st = .running) : ∃ k : Nat, k ∈ s.candidates := by
  cases hq : s.quiescent with
  | false =>
    obtain ⟨u, hu, he⟩ : ∃ u ∈ s.vms, u.enabled = true := by
      simpa [State.quiescent] using hq
    obtain ⟨k, hk⟩ := List.mem_iff_getElem?.1 hu
    exact ⟨k, State.mem_candidates_of_enabled hk he⟩
  | true =>
    obtain ⟨v, hv, hr⟩ := h
    obtain ⟨k, hk⟩ := List.mem_iff_getElem?.1 hv
    have hb : v.blocked = true := by
      have hne := State.quiescent_iff.1 hq v hv
      simpa [Vm.enabled, hr] using hne
    exact ⟨k, State.mem_candidates.2 ⟨v, hk, .inr ⟨hq, hb⟩⟩⟩

/-- The scheduler chooses a VM wherever there is a candidate. -/
theorem State.exists_chosen {s : State} {k : Nat} (h : k ∈ s.candidates) : ∃ j : Nat, s.chosen = some j := by
  refine Option.ne_none_iff_exists'.1 fun hnone => ?_
  rw [State.chosen, pick_none] at hnone
  exact List.ne_nil_of_mem h hnone

/-- Under the invariant every candidate has a step: an enabled VM its instruction, a blocked one its starvation. -/
theorem stepVm_isNext_of_candidate {s : State} (hs : s.Inv) {k : Nat} (hk : k ∈ s.candidates) :
    ∃ t : State, stepVm k s = .next t := by
  obtain ⟨v, hv, he | ⟨hq, hb⟩⟩ := State.mem_candidates.1 hk
  · exact stepVm_isNext_of_enabled hs hv he
  · exact ⟨_, (stepVm_of_blocked hv hb (hs.vm_inv k v hv).ip_le).trans (if_pos hq)⟩

end Sys2Proof.Machine

/-! ## The statements settled -/

namespace Sys2Proof.Proofs

open Sys2Proof Sys2Proof.Machine

/-- Settles O56: a `Running` VM leaves the scheduler a candidate, and every candidate steps. -/
theorem runningMachineAlwaysSteps : Obligations.RunningMachineAlwaysSteps := by
  intro s hs hrun
  obtain ⟨_, hcandidate⟩ := State.exists_candidate_of_running hrun
  obtain ⟨k, hk⟩ := State.exists_chosen hcandidate
  obtain ⟨t, ht⟩ := stepVm_isNext_of_candidate hs (State.chosen_mem hk)
  exact ⟨t.reschedule, step_of_chosen hk ht⟩

/-- Settles O14: the two jumps differ in their test only. -/
theorem jumpsGoToTheirTargetOrOn : Obligations.JumpsGoToTheirTargetOrOn :=
  fun _ _ _ _ _ _ hs ha ht =>
    ⟨fun hx _ hn => exec_jump_of_taken rfl hs ha ht (nonZero_eq_true.2 hx) hn,
      fun hx hip => exec_jump_of_not_taken rfl hs ha ht (nonZero_eq_false.2 hx) hip,
      fun hx _ hn => exec_jump_of_taken rfl hs ha ht (isZero_eq_true.2 hx) hn,
      fun hx hip => exec_jump_of_not_taken rfl hs ha ht (isZero_eq_false.2 hx) hip⟩

/-- Settles O20: the first action that fails raises its fault, and the target is checked only where it is taken. -/
theorem jumpFaultsInOrder : Obligations.JumpFaultsInOrder := by
  intro s v i test a target hform hs
  rw [exec_jump hform, onVm_eq hs]
  refine ⟨fun f ha => ?first, fun x f ha ht => ?second, fun x t ha ht hx hneg => ?target,
    fun x t ha ht hx hip => ?advance⟩
  case first => rw [jumpIf_of_rd_first_error ha]; rfl
  case second => rw [jumpIf_of_rd_second_error ha ht]; rfl
  case target => rw [jumpIf_of_taken ha ht hx, Vm.setIp_of_neg v _ hneg]; rfl
  case advance => rw [jumpIf_of_not_taken ha ht hx, Vm.advance_of_gt _ hip]; rfl

/-- Settles O32: every instruction's faults and the decode faults are raised at the unmoved `ip`. -/
theorem faultKeepsIpAndRecordsIt : Obligations.FaultKeepsIpAndRecordsIt :=
  fun _ _ _ _ _ _ => stepVm_faulted

/-- Settles O40: IN waits outside quiescence, where the candidates are the enabled VMs only. -/
theorem blockedVmHasNoStep : Obligations.BlockedVmHasNoStep := by
  intro s k v hv hb hip hq
  refine ⟨?noStep, fun hchosen => ?notChosen⟩
  case noStep => rw [stepVm_of_blocked hv hb hip, hq]; rfl
  case notChosen => exact State.not_mem_candidates_of_blocked hv hb hq (State.chosen_mem hchosen)

/-- Settles O18: HLT replaces the stepping VM by the same one `Halted`. -/
theorem hltOnlyHalts : Obligations.HltOnlyHalts :=
  fun _ _ hs => onVm_eq hs _

/-- Settles O30: the step of the chosen VM runs the decoded instruction, and the machine's step only reschedules its
outcome. -/
theorem stepRunsTheDecodedInstruction : Obligations.StepRunsTheDecodedInstruction := by
  intro s k v i hchosen hv hr hip hd
  have hstep : stepVm k s = exec i (s.select k) := stepVm_of_decoded hv hr hip hd
  refine ⟨hstep, ?_⟩
  rw [step, networkStep, hchosen]
  simp only [hstep]
  rfl

end Sys2Proof.Proofs

/-! PROOFS of the port statements (43_io.md): what IN takes and stores, what OUT records and sends, in which order the two fault,
and that both kinds of port are first in, first out. -/

namespace Sys2Proof.Machine

/-! ## IN (R130, R135, R141) -/

theorem Port.takeInput_queue_of_nil {q : QueuePort} (quiet : Bool) (h : q.inFifo = []) :
    (Port.queue q).takeInput quiet = .starved .queueEmpty := by
  simp only [Port.takeInput, h]

theorem Port.takeInput_queue_of_cons {q : QueuePort} {x : Word} {rest : List Word} (quiet : Bool)
    (h : q.inFifo = x :: rest) : (Port.queue q).takeInput quiet = .value x (.queue { q with inFifo := rest }) := by
  simp only [Port.takeInput, h]

theorem Port.takeInput_channel_of_cons {c : ChannelPort} {x : Word} {rest : List Word} (quiet : Bool)
    (h : c.inbox = x :: rest) : (Port.channel c).takeInput quiet = .value x (.channel { c with inbox := rest }) := by
  simp only [Port.takeInput, h]

/-- IN that finds no input raises its starvation, whatever its destination. -/
theorem exec_inp_of_starved {s : State} {v : Vm} {why : Starvation} (dst : Mode) (hs : s.Stepping v)
    (h : v.port.takeInput s.quiescent = .starved why) :
    exec (.inp dst) s = .next (s.setVm (v.raise v.instrWord (.inputStarvation why))) := by
  show execIn dst s = _
  simp only [execIn, onRunning_eq hs, h]

/-- IN that completes stores the word it took and advances by 2, and nothing else is changed. -/
theorem exec_inp_of_ok {s : State} {v : Vm} {dst : Mode} {x : Word} {p : Port} {d : Nat} (hs : s.Stepping v)
    (hp : v.port.takeInput s.quiescent = .value x p) (hd : destAddr v 1 dst = .ok d) (hip : v.ip + 2 ≤ Config.addrMax) :
    exec (.inp dst) s = .next (s.setVm { v with port := p, mem := v.mem.write d x, ip := v.ip + 2 }) := by
  rw [exec_inp_of_value dst hs hp, storeInput_of_destAddr_ok x p hd hip]

/-- An advance past the top faults after the store, which stays done (R171). -/
theorem storeInput_of_advance_error {v : Vm} {dst : Mode} (x : Word) (p : Port) {d : Nat} (hd : destAddr v 1 dst = .ok d)
    (hip : Config.addrMax < v.ip + 2) :
    storeInput dst x p v =
      Vm.raise { v with port := p, mem := v.mem.write d x } v.instrWord (.addressRangeFault (v.ip + 2)) := by
  simp only [storeInput, Vm.orRaise, wr_ok.2 ⟨d, hd, rfl⟩]
  exact Vm.advance_of_gt _ hip

/-! ## OUT (R131, R137, R143): one equation per place its word goes to -/

section Sending

variable {s : State} {v : Vm} {a : Mode} {x : Word}

theorem exec_out_of_rd_error {f : VmFault} (hs : s.Stepping v) (h : rd v 1 a = .error f) :
    exec (.out a) s = .next (s.setVm (v.raise v.instrWord f)) := by
  show execOut a s = _
  simp only [execOut, onRunning_eq hs, h]

/-- OUT records its word and advances, and its word is delivered to the downstream VM. -/
theorem exec_out_of_rd_ok (hs : s.Stepping v) (h : rd v 1 a = .ok x)
    (hdown : ∀ j, v.port.downstream = some j → j < s.vms.length) :
    exec (.out a) s = .next
      { s with
        vms := deliver (s.vms.set s.cur (Vm.advance { v with port := v.port.record x } v.instrWord 2))
          v.port.downstream (some x) } := by
  rw [exec_runOwn (i := .out a) hs nofun hdown]
  simp only [Vm.runOwn, h]

theorem exec_out_of_no_downstream (hs : s.Stepping v) (h : rd v 1 a = .ok x) (hd : v.port.downstream = none) :
    exec (.out a) s = .next (s.setVm (Vm.advance { v with port := v.port.record x } v.instrWord 2)) := by
  rw [exec_out_of_rd_ok hs h (by simp [hd]), hd]
  rfl

/-- In a ring of one the word comes back to the VM's own inbox. -/
theorem exec_out_of_own_downstream (hs : s.Stepping v) (h : rd v 1 a = .ok x) (hd : v.port.downstream = some s.cur) :
    exec (.out a) s =
      .next (s.setVm (Vm.advance { v with port := (v.port.record x).addInput x } v.instrWord 2)) := by
  have hadd := advance_add { v with port := v.port.record x } v.instrWord 2 x
  rw [exec_out_of_rd_ok hs h (by simpa [hd] using hs.lt), hd, hadd, deliver, State.setVm,
    modify_eq_set (List.getElem?_set_self hs.lt), List.set_set]

theorem exec_out_of_other_downstream {j : Nat} {u : Vm} (hs : s.Stepping v) (h : rd v 1 a = .ok x)
    (hd : v.port.downstream = some j) (hj : j ≠ s.cur) (hu : s.vms[j]? = some u) :
    exec (.out a) s = .next
      { s with
        vms := (s.vms.set s.cur (Vm.advance { v with port := v.port.record x } v.instrWord 2)).set j
          { u with port := u.port.addInput x } } := by
  have hlt : j < s.vms.length := (List.getElem?_eq_some_iff.1 hu).1
  rw [exec_out_of_rd_ok hs h (by simpa [hd] using hlt), hd, deliver,
    modify_eq_set ((List.getElem?_set_ne hj.symm).trans hu)]

end Sending

end Sys2Proof.Machine

/-! ## The statements settled -/

namespace Sys2Proof.Proofs

open Sys2Proof Sys2Proof.Machine

/-- Settles O15: either kind of port gives its front word, and IN stores it. -/
theorem inStoresTheOldestInput : Obligations.InStoresTheOldestInput := by
  intro s v dst x rest d hs hd hip
  refine ⟨fun q hq hfront => ?queue, fun c hc hfront => ?channel⟩
  case queue => exact exec_inp_of_ok hs (hq ▸ Port.takeInput_queue_of_cons _ hfront) hd hip
  case channel => exact exec_inp_of_ok hs (hc ▸ Port.takeInput_channel_of_cons _ hfront) hd hip

/-- Settles O16, by where the word goes: nowhere else, to the VM itself, or to another VM. -/
theorem outRecordsAndSends : Obligations.OutRecordsAndSends := by
  intro s v a x hs hx hip
  have hadvance (p : Port) : Vm.advance { v with port := p } v.instrWord 2 = { v with port := p, ip := v.ip + 2 } :=
    Vm.advance_of_le _ hip
  refine ⟨fun q hq => ?queue, fun c hc hd => ?chainEnd, fun c hc hd => ?ringOfOne,
    fun c e j u hc hd hj hu he => ?other⟩
  case queue =>
    rw [exec_out_of_no_downstream hs hx (by rw [hq]; rfl), hadvance, hq]
    rfl
  case chainEnd =>
    rw [exec_out_of_no_downstream hs hx (by rw [hc]; exact hd), hadvance, hc]
    rfl
  case ringOfOne =>
    rw [exec_out_of_own_downstream hs hx (by rw [hc]; exact hd), hadvance, hc]
    rfl
  case other =>
    rw [exec_out_of_other_downstream hs hx (by rw [hc]; exact hd) hj hu, hadvance, hc, he]
    rfl

/-- Settles O21: IN has its input before it looks at its destination, and has stored it before it advances. -/
theorem inFaultsAfterTakingItsInput : Obligations.InFaultsAfterTakingItsInput := by
  intro s v dst x p hs hp
  rw [exec_inp_of_value dst hs hp]
  refine ⟨fun f hd => ?destination, fun d hd hip => ?advance⟩
  case destination => rw [storeInput_of_destAddr_error x p hd]; rfl
  case advance => rw [storeInput_of_advance_error x p hd hip]; rfl

/-- Settles O22: OUT has written nothing when its operand faults, and everything when its advance does. -/
theorem outFaultsInOrder : Obligations.OutFaultsInOrder := by
  intro s v a hs
  have hadvance (p : Port) (hip : Config.addrMax < v.ip + 2) : Vm.advance { v with port := p } v.instrWord 2 =
      Vm.raise { v with port := p } v.instrWord (.addressRangeFault (v.ip + 2)) :=
    Vm.advance_of_gt _ hip
  refine ⟨fun f hf => ?operand, fun x hx hip hd => ?chainEnd, fun x hx hip hd => ?ringOfOne,
    fun x j u hx hip hd hj hu => ?other⟩
  case operand => exact exec_out_of_rd_error hs hf
  case chainEnd => rw [exec_out_of_no_downstream hs hx hd, hadvance _ hip]; rfl
  case ringOfOne => rw [exec_out_of_own_downstream hs hx hd, hadvance _ hip]; rfl
  case other => rw [exec_out_of_other_downstream hs hx hd hj hu, hadvance _ hip]; rfl

/-- Settles O39: the word behind the others stays behind them when the first is taken. -/
theorem portsAreFirstInFirstOut : Obligations.PortsAreFirstInFirstOut := by
  intro p x y rest quiet hp
  obtain ⟨p', htake⟩ := Port.takeInput_of_pending quiet hp
  obtain ⟨hpending, hout, hhist, hdown⟩ := Port.takeInput_value htake
  obtain ⟨-, hrest⟩ := List.cons.inj (hp.symm.trans hpending)
  exact ⟨p'.addInput y, takeInput_add htake, by simp [hrest], by simpa using hout, by simpa using hhist,
    by simpa using hdown⟩

/-- Settles O25: a queue port gives its front word or starves, and IN has a next state after either. -/
theorem queuePortPopsOrStarves : Obligations.QueuePortPopsOrStarves := by
  intro s v q dst hs hq
  have hempty (h : q.inFifo = []) := exec_inp_of_starved dst hs (hq ▸ Port.takeInput_queue_of_nil _ h)
  have hfront (x : Word) (rest : List Word) (h : q.inFifo = x :: rest) :
      v.port.takeInput s.quiescent = .value x (.queue { q with inFifo := rest }) :=
    hq ▸ Port.takeInput_queue_of_cons _ h
  refine ⟨hempty, hfront, ?next⟩
  case next =>
    cases h : q.inFifo with
    | nil => exact ⟨_, hempty h⟩
    | cons x rest => exact ⟨_, exec_inp_of_value dst hs (hfront x rest h)⟩

/-- Settles O38: `send` modifies one VM that is there, whatever its run state. -/
theorem sendAppendsToTheInbox : Obligations.SendAppendsToTheInbox := by
  intro s j x u c hu hc
  have hlt : j < s.vms.length := (List.getElem?_eq_some_iff.1 hu).1
  refine ⟨_, State.send_some.2 ⟨hlt, rfl⟩, ?inbox, fun k hk => ?others, rfl, rfl, rfl⟩
  case inbox => simp [hu, hc, Port.addInput]
  case others => simp [hk.symm]

end Sys2Proof.Proofs

/-! PROOFS of the relative base statements (44_relative_base.md): how ARB moves the base and where it faults, that no other
instruction changes a base, and that without a Relative parameter none depends on it. -/

namespace Sys2Proof.Machine

/-! ## The shape of ARB, one equation per way it ends (R160, R176) -/

section AdjustingTheBase

variable {v : Vm} {a : Mode} {x : Word}

theorem adjustBase_of_rd_error {f : VmFault} (ha : rd v 1 a = .error f) : adjustBase a v = v.raise v.instrWord f := by
  simp only [adjustBase, Vm.orRaise, ha]

/-- A new base out of range is the fault, and the base is left alone (decision D3). -/
theorem adjustBase_of_outOfRange (ha : rd v 1 a = .ok x)
    (hr : (v.rb : Int) + x.toInt < 0 ∨ (Config.addrMax : Int) < v.rb + x.toInt) :
    adjustBase a v = v.raise v.instrWord (.addressRangeFault (v.rb + x.toInt)) := by
  simp only [adjustBase, Vm.orRaise, ha, checkAddr_error.2 ⟨hr, rfl⟩]

/-- With the new base in range only the advance is left to do. -/
theorem adjustBase_of_inRange {r : Nat} (ha : rd v 1 a = .ok x) (hr : (v.rb : Int) + x.toInt = r)
    (hle : r ≤ Config.addrMax) : adjustBase a v = Vm.advance { v with rb := r } v.instrWord 2 := by
  simp only [adjustBase, Vm.orRaise, ha, checkAddr_ok.2 ⟨hr, hle⟩]

end AdjustingTheBase

theorem exec_arb {s : State} {v : Vm} (a : Mode) (hs : s.Stepping v) :
    exec (.arb a) s = .next (s.setVm (adjustBase a v)) :=
  onVm_eq hs _

/-! ## Other VMs and other bases are left alone (R161) -/

/-- An instruction other than ARB keeps the base of every VM: `Changes` says so of the stepping VM, and the others get no
more than an input. -/
theorem exec_keeps_rb {s t : State} {i : Instr} (hi : ∀ a, i ≠ .arb a) (h : exec i s = .next t) {k : Nat} {v : Vm}
    (hv : s.vms[k]? = some v) : ∃ v' : Vm, t.vms[k]? = some v' ∧ v'.rb = v.rb := by
  obtain ⟨u, u', ht⟩ := exec_next h
  by_cases hk : k = s.cur
  case pos =>
    subst hk
    obtain rfl : v = u := Option.some.inj (hv.symm.trans ht.stepping.get)
    obtain hrb | ⟨⟨a, ha⟩, -⟩ := ht.change.rb
    · exact ⟨u', ht.own, hrb⟩
    · exact absurd ha (hi a)
  case neg =>
    obtain hsame | ⟨-, -, x, hadd⟩ := ht.others k v hk hv
    · exact ⟨v, hsame, rfl⟩
    · exact ⟨_, hadd, rfl⟩

theorem exec_arb_others {s t : State} {a : Mode} (h : exec (.arb a) s = .next t) {k : Nat} (hk : k ≠ s.cur) :
    t.vms[k]? = s.vms[k]? := by
  obtain ⟨v, -, rfl⟩ := onVm_next h
  exact State.setVm_get_ne hk

/-! ## Operands and actions under another base (R47, R161): the base is read by Relative mode and by ARB only -/

section OtherBase

variable {k : Nat} {m : Mode}

theorem rd_withBase (v : Vm) (r : Nat) (hm : m ≠ .relative) : rd (v.withBase r) k m = rd v k m := by
  cases m with
  | position => rfl
  | immediate => rfl
  | relative => exact absurd rfl hm

theorem wr_withBase (v : Vm) (r : Nat) (x : Word) (hm : m ≠ .relative) : wr (v.withBase r) k m x = wr v k m x := by
  cases m with
  | position => rfl
  | immediate => rfl
  | relative => exact absurd rfl hm

theorem orRaise_withBase {α : Type} {v : Vm} {w : Word} {e : Except VmFault α} {f f' : α → Vm} {r : Nat}
    (h : ∀ x, f' x = (f x).withBase r) : (v.withBase r).orRaise w e f' = (v.orRaise w e f).withBase r := by
  cases e with
  | ok x => exact h x
  | error _ => rfl

theorem setIp_withBase (v : Vm) (w : Word) (t : Int) (r : Nat) :
    (v.withBase r).setIp w t = (v.setIp w t).withBase r :=
  orRaise_withBase fun _ => rfl

theorem advance_withBase (v : Vm) (w : Word) (width r : Nat) :
    (v.withBase r).advance w width = (v.advance w width).withBase r :=
  setIp_withBase v w _ r

theorem binary_withBase (op : Word → Word → Word) {a b dst : Mode} (ha : a ≠ .relative) (hb : b ≠ .relative)
    (hdst : dst ≠ .relative) (v : Vm) (r : Nat) :
    binary op a b dst (v.withBase r) = (binary op a b dst v).withBase r := by
  simp only [binary, rd_withBase v r ha, rd_withBase v r hb, wr_withBase v r _ hdst]
  exact orRaise_withBase fun _ => orRaise_withBase fun _ => orRaise_withBase fun mem =>
    advance_withBase { v with mem := mem } _ _ r

theorem jumpIf_withBase (test : Word → Bool) {a target : Mode} (ha : a ≠ .relative) (ht : target ≠ .relative) (v : Vm)
    (r : Nat) : jumpIf test a target (v.withBase r) = (jumpIf test a target v).withBase r := by
  simp only [jumpIf, rd_withBase v r ha, rd_withBase v r ht]
  refine orRaise_withBase fun x => orRaise_withBase fun t => ?_
  cases test x with
  | true => exact setIp_withBase v _ _ r
  | false => exact advance_withBase v _ _ r

theorem storeInput_withBase {dst : Mode} (x : Word) (p : Port) (hdst : dst ≠ .relative) (v : Vm) (r : Nat) :
    storeInput dst x p (v.withBase r) = (storeInput dst x p v).withBase r := by
  simp only [storeInput, wr_withBase v r x hdst]
  exact orRaise_withBase (v := { v with port := p }) fun mem =>
    advance_withBase { v with port := p, mem := mem } _ _ r

end OtherBase

/-! ## The machine under another base of its stepping VM -/

/-- Two changes that commute on every VM may be made to a VM list in either order, at one place or at two. -/
theorem modify_modify_comm {f g : Vm → Vm} (h : ∀ v, f (g v) = g (f v)) (l : List Vm) (j k : Nat) :
    (l.modify j f).modify k g = (l.modify k g).modify j f := by
  by_cases hjk : j = k
  case pos =>
    subst hjk
    rw [List.modify_modify_eq, List.modify_modify_eq]
    exact congrArg _ (funext fun v => (h v).symm)
  case neg => exact List.modify_modify_ne f g l hjk

theorem all_modify {p : Vm → Bool} {f : Vm → Vm} (h : ∀ v, p (f v) = p v) (l : List Vm) (k : Nat) :
    (l.modify k f).all p = l.all p := by
  induction l generalizing k with
  | nil => cases k <;> rfl
  | cons v l ih => cases k <;> simp [h, ih]

section WithBase

variable {s : State} {v : Vm} (r : Nat)

theorem State.Stepping.withBase (h : s.Stepping v) : (s.withBase r).Stepping (v.withBase r) :=
  ⟨by simp [State.withBase, h.get], h.running⟩

theorem State.quiescent_withBase (s : State) : (s.withBase r).quiescent = s.quiescent :=
  all_modify (p := fun v => !v.enabled) (f := fun v => v.withBase r) (fun _ => rfl) s.vms s.cur

theorem State.setVm_withBase (s : State) (u : Vm) : (s.withBase r).setVm (u.withBase r) = (s.setVm u).withBase r := by
  simp [State.withBase, State.setVm, State.modifyVm, List.set_eq_modify, List.modify_modify_eq, Function.comp_def]

theorem State.modifyVm_withBase {f : Vm → Vm} (h : ∀ u, f (u.withBase r) = (f u).withBase r) (s : State) :
    (s.withBase r).modifyVm f = (s.modifyVm f).withBase r := by
  simp only [State.withBase, State.modifyVm, modify_modify_comm h]

theorem State.send_withBase (s : State) (j : Nat) (x : Word) :
    (s.withBase r).send j x = (s.send j x).map (·.withBase r) := by
  simp only [State.send, State.withBase, State.modifyVm, List.length_modify]
  split
  · simp only [Option.map_some, modify_modify_comm (f := fun u => u.withBase r)
      (g := fun u => { u with port := u.port.addInput x }) fun _ => rfl]
  · rfl

theorem State.writeOutput_withBase (s : State) (v : Vm) (x : Word) :
    (s.withBase r).writeOutput (v.withBase r) x = (s.writeOutput v x).map (·.withBase r) := by
  have hrecord := s.setVm_withBase r { v with port := v.port.record x }
  unfold State.writeOutput
  cases hd : v.port.downstream with
  | none => simpa [Vm.withBase, hd] using hrecord
  | some j => simpa [Vm.withBase, hd, ← State.send_withBase] using congrArg (·.send j x) hrecord

end WithBase

/-! ## No instruction without a Relative parameter, other than ARB, depends on the base (R161) -/

section Executing

variable {s t : State} (r : Nat)

/-- What touches only the stepping VM, and does the same to it under another base, does the same to the machine. -/
theorem onVm_withBase {f : Vm → Vm} (hf : ∀ v r, f (v.withBase r) = (f v).withBase r) (h : onVm s f = .next t) :
    onVm (s.withBase r) f = .next (t.withBase r) := by
  obtain ⟨v, hv, rfl⟩ := onVm_next h
  rw [onVm_eq (hv.withBase r), hf, State.setVm_withBase]

theorem execIn_withBase {dst : Mode} (hdst : dst ≠ .relative) (h : execIn dst s = .next t) :
    execIn dst (s.withBase r) = .next (t.withBase r) := by
  obtain ⟨v, hv, ⟨x, p, hp, rfl⟩ | ⟨why, hp, rfl⟩⟩ := execIn_next h
  case inl =>
    have hexec := exec_inp_of_value dst (hv.withBase r) (by rwa [State.quiescent_withBase])
    rwa [storeInput_withBase x p hdst, State.setVm_withBase] at hexec
  case inr =>
    have hexec := exec_inp_of_starved dst (hv.withBase r) (by rwa [State.quiescent_withBase])
    exact hexec.trans (congrArg _ (s.setVm_withBase r (v.raise v.instrWord (.inputStarvation why))))

theorem execOut_withBase {a : Mode} (ha : a ≠ .relative) (h : execOut a s = .next t) :
    execOut a (s.withBase r) = .next (t.withBase r) := by
  obtain ⟨v, hv, h⟩ := onRunning_next h
  rw [execOut, onRunning_eq (hv.withBase r), rd_withBase v r ha]
  cases hx : rd v 1 a with
  | error f =>
    simp only [hx] at h ⊢
    cases h
    exact congrArg _ (s.setVm_withBase r (v.raise v.instrWord f))
  | ok x =>
    simp only [hx, State.writeOutput_withBase] at h ⊢
    cases hw : s.writeOutput v x with
    | none => simp [hw] at h
    | some s1 =>
      simp only [hw] at h
      cases h
      exact congrArg _ (s1.modifyVm_withBase r fun u => advance_withBase u v.instrWord 2 r)

theorem exec_withBase {i : Instr} (hrel : noRelative i) (hi : ∀ a, i ≠ .arb a) (h : exec i s = .next t) :
    exec i (s.withBase r) = .next (t.withBase r) := by
  obtain ⟨h1, h2, h3⟩ := hrel
  cases i with
  | add a b dst => exact onVm_withBase r (binary_withBase addValue h1 h2 h3) h
  | mul a b dst => exact onVm_withBase r (binary_withBase mulValue h1 h2 h3) h
  | lt a b dst => exact onVm_withBase r (binary_withBase ltValue h1 h2 h3) h
  | eq a b dst => exact onVm_withBase r (binary_withBase eqValue h1 h2 h3) h
  | inp dst => exact execIn_withBase r h1 h
  | out a => exact execOut_withBase r h1 h
  | jnz a target => exact onVm_withBase r (jumpIf_withBase nonZero h1 h2) h
  | jz a target => exact onVm_withBase r (jumpIf_withBase isZero h1 h2) h
  | arb a => exact absurd rfl (hi a)
  | hlt => exact onVm_withBase r (fun _ _ => rfl) h

end Executing

/-! ## The VMs of a fresh network (R235) -/

/-- Whatever its phase setting and its place, a VM of a fresh network has started from a copy of the one Program: the words
the host adds go to its port. -/
theorem State.mem_network {program phases : List Word} {initial : Word} {feedback : Bool} {s : State} {v : Vm}
    (h : State.network program phases initial feedback = some s) (hv : v ∈ s.vms) :
    ∃ port : Port, v = Vm.start (Memory.ofProgram program) port := by
  cases phases with
  | nil => cases h
  | cons phase phases =>
    cases h
    obtain ⟨k, hk⟩ := List.mem_iff_getElem?.1 hv
    simp only [List.getElem?_modify, List.getElem?_mapIdx, Option.map_eq_map, Option.map_map,
      Option.map_eq_some_iff] at hk
    obtain ⟨x, -, rfl⟩ := hk
    rw [Function.comp_apply]
    split
    · exact ⟨_, rfl⟩
    · exact ⟨_, rfl⟩

end Sys2Proof.Machine

/-! ## The statements settled -/

namespace Sys2Proof.Proofs

open Sys2Proof Sys2Proof.Machine

/-- Settles O17: with the new base in range ARB stores it and advances. -/
theorem arbMovesTheBase : Obligations.ArbMovesTheBase := by
  intro s v a x r hs ha hr hle hip
  have hadvance := Vm.advance_of_le (v := { v with rb := r }) v.instrWord hip
  rw [exec_arb a hs, adjustBase_of_inRange ha hr hle, hadvance]

/-- Settles O23: the operand comes first, then the check of the new base, and the base has moved before the advance. -/
theorem arbFaultsInOrder : Obligations.ArbFaultsInOrder := by
  intro s v a hs
  rw [exec_arb a hs]
  refine ⟨fun f ha => ?operand, fun x r ha hr hout => ?base, fun x r ha hr hle hip => ?advance⟩
  case operand => rw [adjustBase_of_rd_error ha]; rfl
  case base => subst hr; rw [adjustBase_of_outOfRange ha hout]; rfl
  case advance =>
    have hadvance := Vm.advance_of_gt (v := { v with rb := r }) v.instrWord hip
    rw [adjustBase_of_inRange ha hr hle, hadvance]
    rfl

/-- Settles O36: only ARB writes a base, only Relative operands and ARB read it, and every VM starts with base 0. -/
theorem relativeBaseLaw : Obligations.RelativeBaseLaw := by
  refine ⟨fun s t i hi h k v hv => exec_keeps_rb hi h hv, fun s t a h k v hk hv => (exec_arb_others h hk).trans hv,
    fun s t i r hrel hi h => exec_withBase r hrel hi h, fun program phases initial feedback s v h hv => ?network,
    fun mem q v hv => ?standalone⟩
  case network =>
    obtain ⟨port, rfl⟩ := State.mem_network h hv
    rfl
  case standalone =>
    obtain rfl := List.mem_singleton.1 hv
    rfl

end Sys2Proof.Proofs

/-! PROOFS of the determinism statements (60_exceptions.md R202, R207, R211): the steps of two candidates commute, so that all
runs that end, end alike. -/

namespace Sys2Proof.Machine

/-! ## The topology feeds no VM twice (R31) -/

theorem downstreamOf_some {n i k : Nat} {feedback : Bool} :
    downstreamOf n feedback i = some k ↔ i + 1 < n ∧ i + 1 = k ∨ n ≤ i + 1 ∧ feedback = true ∧ 0 = k := by
  unfold downstreamOf
  split
  · next hi => simp [hi]
  · next hi => simp [hi, Nat.le_of_not_lt hi]

theorem downstreamOf_injective {n i j k : Nat} {feedback : Bool} (hi : i < n) (hj : j < n)
    (hik : downstreamOf n feedback i = some k) (hjk : downstreamOf n feedback j = some k) : i = j := by
  rw [downstreamOf_some] at hik hjk
  omega

/-- A VM that feeds another one is wired by the topology. -/
theorem State.Inv.downstream_eq {s : State} (hs : s.Inv) {i k : Nat} {v : Vm} (hv : s.vms[i]? = some v)
    (hd : v.port.downstream = some k) : downstreamOf s.vms.length s.feedback i = some k := by
  have hwired := hs.topology i v hv
  cases hp : v.port with
  | queue q => rw [hp] at hd; cases hd
  | channel c =>
    rw [hp] at hd hwired
    exact hwired.symm.trans hd

theorem State.Inv.downstream_ne {s : State} (hs : s.Inv) {i j : Nat} {v u : Vm} (hij : i ≠ j)
    (hv : s.vms[i]? = some v) (hu : s.vms[j]? = some u) :
    ∀ m n, v.port.downstream = some m → u.port.downstream = some n → m ≠ n := by
  rintro m _ hm hn rfl
  exact hij (downstreamOf_injective (List.getElem?_eq_some_iff.1 hv).1 (List.getElem?_eq_some_iff.1 hu).1
    (hs.downstream_eq hv hm) (hs.downstream_eq hu hn))

/-- In a machine of two VMs or more every port is a channel port. -/
theorem State.Inv.channel_of_ne {s : State} (hs : s.Inv) {i j : Nat} {v u : Vm} (hij : i ≠ j)
    (hv : s.vms[i]? = some v) (hu : s.vms[j]? = some u) : ∃ c : ChannelPort, u.port = .channel c := by
  have hwired := hs.topology j u hu
  cases hp : u.port with
  | channel c => exact ⟨c, rfl⟩
  | queue q =>
    have hi := (List.getElem?_eq_some_iff.1 hv).1
    have hj := (List.getElem?_eq_some_iff.1 hu).1
    rw [hp] at hwired
    change s.vms.length = 1 at hwired
    omega

/-! ## Two enabled VMs (R202) -/

/-- An enabled VM of a network steps as it would have before a delivery, and what was delivered to it waits behind. -/
theorem deliver_stepOwn {l : List Vm} {j : Nat} {u : Vm} (d : Option Nat) (x : Option Word) (hu : l[j]? = some u)
    (he : u.enabled = true) (hc : ∃ c : ChannelPort, u.port = .channel c) :
    ∃ u' : Vm, (deliver l d x)[j]? = some u' ∧ u'.enabled = true ∧ u'.port.downstream = u.port.downstream ∧
      u'.stepOwn.2 = u.stepOwn.2 ∧ (deliver l d x).set j u'.stepOwn.1 = deliver (l.set j u.stepOwn.1) d x := by
  match d, x with
  | none, _ => exact ⟨u, hu, he, rfl, rfl, rfl⟩
  | some _, none => exact ⟨u, hu, he, rfl, rfl, rfl⟩
  | some m, some y =>
    by_cases hm : m = j
    case pos =>
      subst hm
      have hlt : m < l.length := (List.getElem?_eq_some_iff.1 hu).1
      have hadd := stepOwn_add (y := y) he hc
      refine ⟨{ u with port := u.port.addInput y }, by simp [deliver, hu], enabled_add he, by simp, by rw [hadd], ?_⟩
      simp only [deliver, modify_eq_set hu, modify_eq_set (List.getElem?_set_self hlt), List.set_set, hadd]
    case neg =>
      refine ⟨u, by simp [deliver, hm, hu], he, rfl, rfl, ?_⟩
      simp only [deliver, List.set_eq_modify, List.modify_modify_ne _ _ l hm]

/-- The VMs after VM `i` and VM `j` have each stepped by themselves and what they sent is delivered. -/
def bothStepped (l : List Vm) (i j : Nat) (v u : Vm) : List Vm :=
  deliver (deliver ((l.set i v.stepOwn.1).set j u.stepOwn.1) v.port.downstream v.stepOwn.2)
    u.port.downstream u.stepOwn.2

theorem bothStepped_comm {l : List Vm} {i j : Nat} {v u : Vm} (hij : i ≠ j)
    (hd : ∀ m n, v.port.downstream = some m → u.port.downstream = some n → m ≠ n) :
    bothStepped l i j v u = bothStepped l j i u v := by
  unfold bothStepped
  rw [deliver_comm _ hd, List.set_comm _ _ hij]

section TwoVms

variable {s t : State} {i j : Nat} {v u : Vm}

/-- After the step of one enabled VM another one is still enabled, and its step makes the machine `bothStepped`. -/
theorem stepVm_after_enabled (hs : s.Inv) (hij : i ≠ j) (hv : s.vms[i]? = some v) (hu : s.vms[j]? = some u)
    (hve : v.enabled = true) (hue : u.enabled = true) (ht : stepVm i s = .next t) :
    j ∈ t.candidates ∧ stepVm j t = .next { s with cur := j, vms := bothStepped s.vms i j v u } := by
  have hinv : t.Inv := stepVm_inv hs ht
  rw [stepVm_own hv hve (hs.vm_inv i v hv).ip_le fun _ => hs.downstream_lt hv] at ht
  cases ht
  have hu1 : (s.vms.set i v.stepOwn.1)[j]? = some u := by rw [List.getElem?_set_ne hij, hu]
  obtain ⟨u', hu', he', hdown, hword, hset⟩ :=
    deliver_stepOwn v.port.downstream v.stepOwn.2 hu1 hue (hs.channel_of_ne hij hv hu)
  refine ⟨State.mem_candidates_of_enabled hu' he', ?_⟩
  rw [stepVm_own hu' he' (hinv.vm_inv j u' hu').ip_le fun _ => hinv.downstream_lt hu', hset, hdown, hword]
  rfl

/-! ## Two blocked VMs of a quiescent network (R205) -/

/-- After the starvation of one blocked VM the network is still quiescent, and the other one starves too. -/
theorem stepVm_after_blocked (hs : s.Inv) (hij : i ≠ j) (hv : s.vms[i]? = some v) (hu : s.vms[j]? = some u)
    (hvb : v.blocked = true) (hub : u.blocked = true) (hq : s.quiescent = true) (ht : stepVm i s = .next t) :
    j ∈ t.candidates ∧ stepVm j t = .next
      { s with
        cur := j
        vms := (s.vms.set i (v.raise v.instrWord (.inputStarvation .timedOut))).set j
          (u.raise u.instrWord (.inputStarvation .timedOut)) } := by
  rw [stepVm_of_blocked hv hvb (hs.vm_inv i v hv).ip_le, if_pos hq] at ht
  cases ht
  have hu' : ((s.select i).setVm (v.raise v.instrWord (.inputStarvation .timedOut))).vms[j]? = some u := by
    rw [State.setVm_get_ne hij.symm]; exact hu
  have hq' : ((s.select i).setVm (v.raise v.instrWord (.inputStarvation .timedOut))).quiescent = true := by
    refine State.quiescent_iff.2 fun a ha => ?_
    obtain ha | rfl := List.mem_or_eq_of_mem_set ha
    · exact State.quiescent_iff.1 hq a ha
    · rfl
  refine ⟨State.mem_candidates.2 ⟨u, hu', .inr ⟨hq', hub⟩⟩, ?_⟩
  rw [stepVm_of_blocked hu' hub (hs.vm_inv j u hu).ip_le, if_pos hq']
  rfl

end TwoVms

/-! ## Any two candidates (R202, R203) -/

theorem State.enabled_of_candidate {s : State} {k : Nat} (hk : k ∈ s.candidates) (hq : s.quiescent = false) :
    ∃ v : Vm, s.vms[k]? = some v ∧ v.enabled = true := by
  simpa only [State.candidates, hq, Bool.false_eq_true, if_false, State.mem_indices] using hk

theorem State.blocked_of_candidate {s : State} {k : Nat} (hk : k ∈ s.candidates) (hq : s.quiescent = true) :
    ∃ v : Vm, s.vms[k]? = some v ∧ v.blocked = true := by
  simpa only [State.candidates, hq, if_true, State.mem_indices] using hk

/-- Two candidates can step in either order, and both orders lead to the same machine but for the scheduler's choice. -/
theorem stepVm_comm {s : State} {i j : Nat} (hs : s.Inv) (hij : i ≠ j) (hi : i ∈ s.candidates) (hj : j ∈ s.candidates) :
    ∃ t u w : State, stepVm i s = .next t ∧ stepVm j s = .next u ∧ j ∈ t.candidates ∧ i ∈ u.candidates ∧
      stepVm j t = .next (w.select j) ∧ stepVm i u = .next (w.select i) := by
  obtain ⟨t, ht⟩ := stepVm_isNext_of_candidate hs hi
  obtain ⟨u, hu⟩ := stepVm_isNext_of_candidate hs hj
  cases hq : s.quiescent with
  | false =>
    obtain ⟨a, ha, hae⟩ := State.enabled_of_candidate hi hq
    obtain ⟨b, hb, hbe⟩ := State.enabled_of_candidate hj hq
    obtain ⟨hjt, hstepj⟩ := stepVm_after_enabled hs hij ha hb hae hbe ht
    obtain ⟨hiu, hstepi⟩ := stepVm_after_enabled hs hij.symm hb ha hbe hae hu
    rw [← bothStepped_comm hij (hs.downstream_ne hij ha hb)] at hstepi
    exact ⟨t, u, { s with vms := _ }, ht, hu, hjt, hiu, hstepj, hstepi⟩
  | true =>
    obtain ⟨a, ha, hab⟩ := State.blocked_of_candidate hi hq
    obtain ⟨b, hb, hbb⟩ := State.blocked_of_candidate hj hq
    obtain ⟨hjt, hstepj⟩ := stepVm_after_blocked hs hij ha hb hab hbb hq ht
    obtain ⟨hiu, hstepi⟩ := stepVm_after_blocked hs hij.symm hb ha hbb hab hq hu
    rw [List.set_comm _ _ hij.symm] at hstepi
    exact ⟨t, u, { s with vms := _ }, ht, hu, hjt, hiu, hstepj, hstepi⟩

/-! ## Runs are confluent (R207) -/

/-- A network step from a state of the invariant, with the scheduler's choice forgotten: `cur` is the one thing in which the
two orders of two steps differ. -/
def NetStepUpToChoice (s t : State) : Prop := s.Inv ∧ ∃ u : State, NetStep s u ∧ t = u.select 0

theorem NetStep.upToChoice {s t : State} (h : NetStep s t) (hs : s.Inv) :
    NetStepUpToChoice (s.select 0) (t.select 0) := by
  obtain ⟨k, may, steps⟩ := h
  exact ⟨hs.select 0, t, ⟨k, may, steps⟩, rfl⟩

theorem Reaches.inv {s t : State} (h : Reaches s t) (hs : s.Inv) : t.Inv := by
  induction h with
  | refl => exact hs
  | tail _ last ih => exact last.inv ih

theorem Reaches.upToChoice {s t : State} (h : Reaches s t) (hs : s.Inv) :
    Relation.ReflTransGen NetStepUpToChoice (s.select 0) (t.select 0) := by
  induction h with
  | refl => exact .refl
  | tail before last ih => exact ih.tail (last.upToChoice (before.inv hs))

/-- Two steps from one state are the same, or each can be followed by the other. -/
theorem NetStepUpToChoice.diamond {s t u : State} (ht : NetStepUpToChoice s t) (hu : NetStepUpToChoice s u) :
    ∃ w : State, Relation.ReflGen NetStepUpToChoice t w ∧ Relation.ReflTransGen NetStepUpToChoice u w := by
  obtain ⟨hs, t, ⟨i, hi, ht⟩, rfl⟩ := ht
  obtain ⟨-, u, ⟨j, hj, hu⟩, rfl⟩ := hu
  by_cases hij : i = j
  case pos =>
    subst hij
    cases ht.symm.trans hu
    exact ⟨_, .refl, .refl⟩
  case neg =>
    obtain ⟨t', u', w, ht', hu', hjt, hiu, hjw, hiw⟩ := stepVm_comm hs hij hi hj
    cases ht.symm.trans ht'
    cases hu.symm.trans hu'
    have htw : NetStep t (w.select j) := ⟨j, hjt, hjw⟩
    have huw : NetStep u (w.select i) := ⟨i, hiu, hiw⟩
    exact ⟨w.select 0, .single (htw.upToChoice (stepVm_inv hs ht)), .single (huw.upToChoice (stepVm_inv hs hu))⟩

/-- No network step leaves a state in which every VM is terminal (R187, R206). -/
theorem State.candidates_eq_nil_of_over {s : State} (h : s.over = true) : s.candidates = [] := by
  refine List.eq_nil_iff_forall_not_mem.2 fun k hk => ?_
  obtain ⟨v, hv, hcan⟩ := State.mem_candidates.1 hk
  have hrun : v.st = .running := hcan.elim (fun he => (Vm.enabled_iff.1 he).1) fun hb => (Vm.blocked_iff.1 hb.2).1
  exact State.over_iff.1 h v (List.mem_of_getElem? hv) hrun

theorem NetStepUpToChoice.not_over {s t : State} (h : NetStepUpToChoice s t) : s.over ≠ true := by
  intro hover
  obtain ⟨-, u, ⟨k, hk, -⟩, -⟩ := h
  rw [State.candidates_eq_nil_of_over hover] at hk
  cases hk

/-- Two runs that end, end in the same machine but for the scheduler's choice. -/
theorem Reaches.end_unique {s t u : State} (hs : s.Inv) (ht : Reaches s t) (hu : Reaches s u) (hto : t.over = true)
    (huo : u.over = true) : t.select 0 = u.select 0 := by
  obtain ⟨w, htw, huw⟩ := Relation.church_rosser (fun _ _ _ => NetStepUpToChoice.diamond) (ht.upToChoice hs)
    (hu.upToChoice hs)
  have hend (x : State) (hx : x.over = true) (y : State) : ¬ NetStepUpToChoice (x.select 0) y :=
    fun h => h.not_over hx
  have hw := (Relation.reflTransGen_iff_eq (hend t hto)).1 htw
  have hw' := (Relation.reflTransGen_iff_eq (hend u huo)).1 huw
  exact hw.symm.trans hw'

/-- A result is read only at the end (R210). -/
theorem State.over_of_result {s : State} {r : EvalResult} (h : s.result = some r) : s.over = true := by
  by_contra hover
  rw [State.result, if_neg hover] at h
  cases h

/-! ## A fresh network meets the invariant (R235) -/

theorem Vm.Keeps.seed (x : Word) (v : Vm) : v.Keeps (v.seed x) := .addInput v x

theorem bootVm_inv (program : List Word) (n : Nat) (feedback : Bool) (i : Nat) : (bootVm program n feedback i).Inv :=
  Vm.start_inv (Memory.ofProgram_wf program) rfl

theorem bootVm_wired (program : List Word) (n : Nat) (feedback : Bool) (i : Nat) :
    (bootVm program n feedback i).port.wired n feedback i := rfl

/-- Every VM of a fresh network is the one its place gives it, with words seeded into its inbox. -/
theorem State.network_keeps {program phases : List Word} {initial : Word} {feedback : Bool} {s : State}
    (h : State.network program phases initial feedback = some s) :
    s.feedback = feedback ∧ s.vms.length = phases.length ∧ phases ≠ [] ∧
    ∀ (k : Nat) (v : Vm), s.vms[k]? = some v → (bootVm program phases.length feedback k).Keeps v := by
  cases phases with
  | nil => cases h
  | cons phase phases =>
    cases h
    refine ⟨rfl, by simp, List.cons_ne_nil _ _, fun k v hv => ?_⟩
    simp only [List.getElem?_modify, List.getElem?_mapIdx, Option.map_eq_map, Option.map_map,
      Option.map_eq_some_iff] at hv
    obtain ⟨x, -, rfl⟩ := hv
    rw [Function.comp_apply]
    have hphase := Vm.Keeps.seed x (bootVm program (phase :: phases).length feedback k)
    split
    · have hinitial := Vm.Keeps.seed initial (Vm.seed x (bootVm program (phase :: phases).length feedback k))
      exact ⟨hinitial.inv ∘ hphase.inv, fun n fb m => hinitial.wired n fb m ∘ hphase.wired n fb m⟩
    · exact hphase

theorem State.network_inv {program phases : List Word} {initial : Word} {feedback : Bool} {s : State}
    (h : State.network program phases initial feedback = some s) : s.Inv := by
  obtain ⟨hfb, hlen, hne, hkeeps⟩ := State.network_keeps h
  refine ⟨fun hnil => hne ?_, fun k v hv => (hkeeps k v hv).inv (bootVm_inv _ _ _ _), fun k v hv => ?_⟩
  · rw [hnil] at hlen; exact List.length_eq_zero_iff.1 hlen.symm
  · rw [hlen, hfb]; exact (hkeeps k v hv).wired _ _ _ (bootVm_wired _ _ _ _)

end Sys2Proof.Machine

/-! ## The statements settled -/

namespace Sys2Proof.Proofs

open Sys2Proof Sys2Proof.Machine

/-- Settles O44: two enabled VMs are two candidates, and the steps of two candidates commute. -/
theorem enabledStepsCommute : Obligations.EnabledStepsCommute := by
  intro s i j v u hs hij hv hu hve hue
  obtain ⟨t, u, w, hit, hju, -, -, hjw, hiw⟩ :=
    stepVm_comm hs hij (State.mem_candidates_of_enabled hv hve) (State.mem_candidates_of_enabled hu hue)
  exact ⟨t, _, u, _, hit, hjw, hju, hiw, rfl, rfl⟩

/-- Settles O45: commuting steps make runs confluent, and no step leaves an ended state. -/
theorem finalStateIsTheSameOnEverySchedule : Obligations.FinalStateIsTheSameOnEverySchedule := by
  intro s t u hs ht hu hto huo
  have hend := Reaches.end_unique hs ht hu hto huo
  have hvms := congrArg State.vms hend
  have hresult := congrArg State.result hend
  exact ⟨hvms, hresult⟩

/-- Settles O47: the fresh network is one state of the invariant, and a result is read only at an end of its runs. -/
theorem evaluateHasOneResult : Obligations.EvaluateHasOneResult := by
  rintro program phases initial feedback r r' ⟨s, t, hs, ht, hr⟩ ⟨s', u, hs', hu, hr'⟩
  cases hs.symm.trans hs'
  obtain ⟨-, hresult⟩ := finalStateIsTheSameOnEverySchedule s t u (State.network_inv hs) ht hu
    (State.over_of_result hr) (State.over_of_result hr')
  exact Option.some.inj (hr.symm.trans (hresult.trans hr'))

end Sys2Proof.Proofs

/-! PROOFS of the scheduler statements (60_exceptions.md R187, R201, R203, R205, R206): what a step leaves alone, when a blocked
VM starves, when the run is over, and that a weakly fair run steps every enabled VM. -/

namespace Sys2Proof.Machine

/-! ## What the step of one VM leaves alone (R187, R201) -/

section OtherVms

variable {s t : State} {j k : Nat} {v u : Vm}

/-- The step of VM `k`, be it an instruction or a decode fault, touches VM `k` and, by OUT, its downstream VM. -/
theorem stepVm_touches (h : stepVm k s = .next t) :
    ∃ v v' : Vm, Touches (∃ a, decode v.instrWord = .decoded (.out a)) Vm.Keeps (s.select k) t v v' := by
  obtain ⟨v, v', -, ⟨i, hd, -, ht⟩ | ⟨f, -, rfl, hv, rfl⟩⟩ := stepVm_next h
  case inl =>
    refine ⟨v, v', { ht with change := ht.change.keeps, others := fun j u hj hu => ?_ }⟩
    obtain hsame | ⟨⟨a, rfl⟩, hadded⟩ := ht.others j u hj hu
    · exact .inl hsame
    · exact .inr ⟨⟨a, hd⟩, hadded⟩
  case inr => exact ⟨v, _, .setVm hv (.raise v v.instrWord f)⟩

/-- Another VM is as before, or OUT has added one word to what waits at it. -/
theorem stepVm_other (h : stepVm k s = .next t) (hv : s.vms[k]? = some v) (hu : s.vms[j]? = some u) (hj : j ≠ k) :
    t.vms[j]? = some u ∨ v.port.downstream = some j ∧ (∃ a, decode v.instrWord = .decoded (.out a)) ∧
      ∃ x : Word, t.vms[j]? = some { u with port := u.port.addInput x } := by
  obtain ⟨w, w', ht⟩ := stepVm_touches h
  obtain rfl : v = w := Option.some.inj (hv.symm.trans ht.stepping.get)
  obtain hsame | ⟨hout, hdown, hadded⟩ := ht.others j u hj hu
  · exact .inl hsame
  · exact .inr ⟨hdown, hout, hadded⟩

theorem stepVm_stepping (h : stepVm k s = .next t) : ∃ v : Vm, s.vms[k]? = some v ∧ v.st = .running := by
  obtain ⟨v, v', ht⟩ := stepVm_touches h
  exact ⟨v, ht.stepping⟩

/-- A VM that is not `Running` is never the one that steps, so a step leaves it alone but for one more input. -/
theorem stepVm_terminal (h : stepVm k s = .next t) (hu : s.vms[j]? = some u) (hst : u.st ≠ .running) :
    t.vms[j]? = some u ∨ ∃ x : Word, t.vms[j]? = some { u with port := u.port.addInput x } := by
  obtain ⟨v, hv, hrun⟩ := stepVm_stepping h
  have hj : j ≠ k := by
    rintro rfl
    cases hv.symm.trans hu
    exact hst hrun
  obtain hsame | ⟨-, -, hadded⟩ := stepVm_other h hv hu hj
  · exact .inl hsame
  · exact .inr hadded

/-- Only its own step takes an enabled VM out of that condition (R203). -/
theorem stepVm_enables_other (h : stepVm k s = .next t) (hj : j ≠ k) (he : s.enables j) : t.enables j := by
  obtain ⟨u, hu, hen⟩ := he
  obtain ⟨v, hv, -⟩ := stepVm_stepping h
  obtain hsame | ⟨-, -, x, hadded⟩ := stepVm_other h hv hu hj
  · exact ⟨u, hsame, hen⟩
  · exact ⟨_, hadded, enabled_add hen⟩

end OtherVms

/-! ## `runOver` is the network's answer alone (R206) -/

theorem onRunning_ne_runOver (s : State) {body : Vm → Result} (h : ∀ v, body v ≠ .fault .runOver) :
    onRunning s body ≠ .fault .runOver := by
  unfold onRunning
  split
  · exact nofun
  · split
    · exact h _
    · exact nofun

theorem onVm_ne_runOver (s : State) (f : Vm → Vm) : onVm s f ≠ .fault .runOver :=
  onRunning_ne_runOver s fun _ => nofun

theorem execIn_ne_runOver (dst : Mode) (s : State) : execIn dst s ≠ .fault .runOver := by
  refine onRunning_ne_runOver s fun v => ?_
  split <;> exact nofun

theorem execOut_ne_runOver (a : Mode) (s : State) : execOut a s ≠ .fault .runOver := by
  refine onRunning_ne_runOver s fun v => ?_
  split
  · exact nofun
  · split <;> exact nofun

theorem exec_ne_runOver (i : Instr) (s : State) : exec i s ≠ .fault .runOver := by
  cases i with
  | inp dst => exact execIn_ne_runOver dst s
  | out a => exact execOut_ne_runOver a s
  | add | mul | lt | eq | jnz | jz | arb | hlt => exact onVm_ne_runOver s _

theorem stepVm_ne_runOver (k : Nat) (s : State) : stepVm k s ≠ .fault .runOver := by
  refine onRunning_ne_runOver (s.select k) fun v => ?_
  split
  · exact nofun
  · split
    · exact exec_ne_runOver _ _
    · exact nofun
    · exact nofun

theorem step_runOver_iff {s : State} : step s = .fault .runOver ↔ s.candidates = [] := by
  rw [step, networkStep, ← pick_none (cur := s.cur), ← State.chosen]
  cases hchosen : s.chosen with
  | none => simp
  | some k =>
    have hne := stepVm_ne_runOver k s
    cases hstep : stepVm k s <;> simp_all

end Sys2Proof.Machine

/-! ## The statements settled -/

namespace Sys2Proof.Proofs

open Sys2Proof Sys2Proof.Machine

/-- Settles O35: the VM that steps is `Running`, and every other one gets no more than an input. -/
theorem terminalStatesAreForEver : Obligations.TerminalStatesAreForEver := by
  intro s t k v h hv hst
  obtain ⟨u, ⟨j, -, hstep⟩, rfl⟩ := step_next h
  obtain hsame | ⟨x, hadded⟩ := stepVm_terminal hstep hv hst
  · exact ⟨v, hsame, rfl, rfl, rfl, rfl, .inl rfl⟩
  · exact ⟨_, hadded, rfl, rfl, rfl, rfl, .inr ⟨x, rfl⟩⟩

/-- Settles O37: a step touches its VM and its downstream VM, and a fresh network copies the Program into every VM. -/
theorem stepTouchesItsVmAndDownstreamOnly : Obligations.StepTouchesItsVmAndDownstreamOnly := by
  refine ⟨fun s t k h => ?step, fun program phases initial feedback s v h hv => ?network⟩
  case step =>
    obtain ⟨_, _, ht⟩ := stepVm_touches h
    exact ⟨ht.length, ht.feedback, fun j v u hv hu hj => stepVm_other h hv hu hj⟩
  case network =>
    obtain ⟨port, rfl⟩ := State.mem_network h hv
    rfl

/-- Settles O41: a blocked VM of a quiescent network is a candidate, and its IN starves. -/
theorem quiescenceStarvesBlockedVms : Obligations.QuiescenceStarvesBlockedVms :=
  fun _ _ v hv hb hip hq =>
    ⟨State.mem_candidates.2 ⟨v, hv, .inr ⟨hq, hb⟩⟩, (stepVm_of_blocked hv hb hip).trans (if_pos hq)⟩

/-- Settles O43: the network answers `runOver` for lack of a candidate, and there is a candidate while some VM runs. -/
theorem runIsOverExactlyWhenAllAreTerminal : Obligations.RunIsOverExactlyWhenAllAreTerminal := by
  intro s
  rw [step_runOver_iff]
  constructor
  · intro hnil v hv hrun
    obtain ⟨k, hk⟩ := State.exists_candidate_of_running ⟨v, hv, hrun⟩
    exact List.ne_nil_of_mem hk hnil
  · exact fun hterminal => State.candidates_eq_nil_of_over (State.over_iff.2 hterminal)

/-- Settles O46: a VM that was never stepped would have stayed enabled, and weak fairness steps such a VM. -/
theorem enabledVmIsEventuallyStepped : Obligations.EnabledVmIsEventuallyStepped := by
  intro run who n k hrun hfair hen
  by_contra hnever
  have hother (m : Nat) (hm : n ≤ m) : k ≠ who m := fun hk => hnever ⟨m, hm, hk.symm⟩
  have hstays (m : Nat) (hm : n ≤ m) : (run m).enables k := by
    induction m, hm using Nat.le_induction with
    | base => exact hen
    | succ m hm ih => exact stepVm_enables_other (hrun.steps m) (hother m hm) ih
  exact hnever (hfair n k hstays)

end Sys2Proof.Proofs

/-! PROOFS of the precise fault statement (60_exceptions.md R171, R176, R177): per shape of instruction, what a faulting one has
done. -/

namespace Sys2Proof.Machine

/-! ## The stepping VM is one, and so is what it becomes -/

theorem State.Stepping.unique {s : State} {v u : Vm} (hv : s.Stepping v) (hu : s.Stepping u) : v = u :=
  Option.some.inj (hv.get.symm.trans hu.get)

theorem Touches.eq_of_setVm {sends : Prop} {change : Vm → Vm → Prop} {s t : State} {v v' w : Vm}
    (h : Touches sends change s t v v') (ht : t = s.setVm w) : v' = w := by
  subst ht
  exact Option.some.inj (h.own.symm.trans (State.setVm_get h.stepping))

/-! ## The VM of a faulting instruction, one lemma per shape -/

section FaultingVms

variable {v : Vm} {r : FaultRecord}

/-- Raising a fault changes `st` and nothing else (R171). -/
theorem Vm.raise_eq_of_faulted {w : Word} {f : VmFault} (h : (v.raise w f).st = .faulted r) :
    r.fault = f ∧ v.raise w f = { v with st := .faulted r } := by
  cases h
  exact ⟨rfl, rfl⟩

theorem RunState.ne_faulted_of_running {st : RunState} (h : st = .running) : st ≠ .faulted r := by
  rw [h]; exact nofun

/-- A faulting advance has passed the top of the address space. -/
theorem Vm.advance_faulted {w : Word} {width : Nat} (hr : v.st = .running) (h : (v.advance w width).st = .faulted r) :
    Config.addrMax < v.ip + width ∧ r = { fault := .addressRangeFault (v.ip + width), ip := v.ip, word := w } := by
  obtain ⟨-, he⟩ | ⟨hip, he⟩ := v.advance_cases w width
  · rw [he] at h
    exact absurd h (RunState.ne_faulted_of_running hr)
  · rw [he] at h
    cases h
    exact ⟨hip, rfl⟩

theorem binary_faulted {op : Word → Word → Word} {a b dst : Mode} (hr : v.st = .running)
    (h : (binary op a b dst v).st = .faulted r) :
    binary op a b dst v = { v with st := .faulted r } ∨
    ∃ x y d, rd v 1 a = .ok x ∧ rd v 2 b = .ok y ∧ destAddr v 3 dst = .ok d ∧ Config.addrMax < v.ip + 4 ∧
      r.fault = .addressRangeFault (v.ip + 4) ∧
      binary op a b dst v = { v with mem := v.mem.write d (op x y), st := .faulted r } := by
  obtain ⟨f, -, he⟩ | ⟨x, y, d, ha, hb, hd, ⟨-, he⟩ | ⟨hip, he⟩⟩ := binary_cases op a b dst v
  · rw [he] at h ⊢
    exact .inl (Vm.raise_eq_of_faulted h).2
  · rw [he] at h
    exact absurd h (RunState.ne_faulted_of_running hr)
  · rw [he] at h ⊢
    obtain ⟨hfault, heq⟩ := Vm.raise_eq_of_faulted h
    exact .inr ⟨x, y, d, ha, hb, hd, hip, hfault, heq⟩

theorem jumpIf_faulted {test : Word → Bool} {a target : Mode} (hr : v.st = .running)
    (h : (jumpIf test a target v).st = .faulted r) : jumpIf test a target v = { v with st := .faulted r } := by
  obtain ⟨f, he⟩ | ⟨_, _, _, -, -, -, -, he⟩ := jumpIf_cases test a target v
  · rw [he] at h ⊢
    exact (Vm.raise_eq_of_faulted h).2
  · rw [he] at h
    exact absurd h (RunState.ne_faulted_of_running hr)

theorem adjustBase_faulted {a : Mode} (hr : v.st = .running) (h : (adjustBase a v).st = .faulted r) :
    adjustBase a v = { v with st := .faulted r } ∨
    ∃ (x : Word) (b : Nat), rd v 1 a = .ok x ∧ (v.rb : Int) + x.toInt = b ∧ Config.addrMax < v.ip + 2 ∧
      r.fault = .addressRangeFault (v.ip + 2) ∧ adjustBase a v = { v with rb := b, st := .faulted r } := by
  obtain ⟨f, he⟩ | ⟨x, b, ha, hb, -, ⟨-, he⟩ | ⟨hip, he⟩⟩ := adjustBase_cases a v
  · rw [he] at h ⊢
    exact .inl (Vm.raise_eq_of_faulted h).2
  · rw [he] at h
    exact absurd h (RunState.ne_faulted_of_running hr)
  · rw [he] at h ⊢
    obtain ⟨hfault, heq⟩ := Vm.raise_eq_of_faulted h
    exact .inr ⟨x, b, ha, hb, hip, hfault, heq⟩

theorem storeInput_faulted {dst : Mode} {x : Word} {p : Port} (hr : v.st = .running)
    (h : (storeInput dst x p v).st = .faulted r) :
    storeInput dst x p v = { v with port := p, st := .faulted r } ∨
    ∃ d, destAddr v 1 dst = .ok d ∧ Config.addrMax < v.ip + 2 ∧ r.fault = .addressRangeFault (v.ip + 2) ∧
      storeInput dst x p v = { v with port := p, mem := v.mem.write d x, st := .faulted r } := by
  obtain ⟨f, -, he⟩ | ⟨d, hd, ⟨-, he⟩ | ⟨hip, he⟩⟩ := storeInput_cases dst x p v
  · rw [he] at h ⊢
    exact .inl (Vm.raise_eq_of_faulted h).2
  · rw [he] at h
    exact absurd h (RunState.ne_faulted_of_running hr)
  · rw [he] at h ⊢
    obtain ⟨hfault, heq⟩ := Vm.raise_eq_of_faulted h
    exact .inr ⟨d, hd, hip, hfault, heq⟩

end FaultingVms

/-! ## The machine of a faulting OUT -/

/-- OUT that has written its word found the VM it sends to. -/
theorem execOut_downstream_lt {s t : State} {v : Vm} {a : Mode} {x : Word} {j : Nat} (hs : s.Stepping v)
    (h : execOut a s = .next t) (hx : rd v 1 a = .ok x) (hd : v.port.downstream = some j) : j < s.vms.length := by
  rw [execOut, onRunning_eq hs] at h
  simp only [hx, State.writeOutput, hd] at h
  split at h
  · next s1 hsend => simpa using (State.send_some.1 hsend).1
  · cases h

/-- A faulting OUT has done nothing, or has recorded and sent its word in full. -/
theorem exec_out_faulted {s t : State} {v v' : Vm} {a : Mode} {r : FaultRecord} (hs : s.Stepping v)
    (h : exec (.out a) s = .next t) (hv' : t.vms[s.cur]? = some v') (hr : v'.st = .faulted r) :
    t = s.setVm { v with st := .faulted r } ∨
    ∃ x : Word, rd v 1 a = .ok x ∧ Config.addrMax < v.ip + 2 ∧ r.fault = .addressRangeFault (v.ip + 2) ∧
      ((v.port.downstream = none ∧ t = s.setVm { v with port := v.port.record x, st := .faulted r }) ∨
        (v.port.downstream = some s.cur ∧
          t = s.setVm { v with port := (v.port.record x).addInput x, st := .faulted r }) ∨
        ∃ (j : Nat) (u : Vm), v.port.downstream = some j ∧ j ≠ s.cur ∧ s.vms[j]? = some u ∧
          t = { s with
                vms := (s.vms.set s.cur { v with port := v.port.record x, st := .faulted r }).set j
                  { u with port := u.port.addInput x } }) := by
  obtain ⟨w, hw, ⟨f, -, rfl⟩ | ⟨x, hx, -, -, -, -, hown, -⟩⟩ := execOut_next h <;>
    obtain rfl := hs.unique hw
  case inl =>
    obtain rfl : v' = v.raise v.instrWord f := Option.some.inj (hv'.symm.trans (State.setVm_get hs))
    exact .inl (congrArg s.setVm (Vm.raise_eq_of_faulted hr).2)
  case inr =>
    obtain rfl := Option.some.inj (hv'.symm.trans hown)
    obtain ⟨hip, rfl⟩ := Vm.advance_faulted (v := { v with port := v.port.written s.cur x }) hs.running hr
    have hsame {t' : State} (h' : exec (.out a) s = .next t') : t = t' := by
      cases h.symm.trans h'
      rfl
    obtain ⟨-, hend, hring, hother⟩ := Proofs.outFaultsInOrder s v a hs
    refine .inr ⟨x, hx, hip, rfl, ?_⟩
    cases hd : v.port.downstream with
    | none => exact .inl ⟨rfl, hsame (hend x hx hip hd)⟩
    | some j =>
      refine .inr ?_
      by_cases hj : j = s.cur
      case pos =>
        subst hj
        exact .inl ⟨rfl, hsame (hring x hx hip hd)⟩
      case neg =>
        have hu := List.getElem?_eq_getElem (execOut_downstream_lt hs h hx hd)
        exact .inr ⟨j, _, rfl, hj, hu, hsame (hother x j _ hx hip hd hj hu)⟩

/-- Every instruction has one of six shapes. -/
theorem instr_shape_cases (i : Instr) :
    (∃ op a b dst, binaryForm i = some (op, a, b, dst)) ∨ (∃ test a target, jumpForm i = some (test, a, target)) ∨
    (∃ dst, i = .inp dst) ∨ (∃ a, i = .out a) ∨ (∃ a, i = .arb a) ∨ i = .hlt := by
  cases i <;> simp [binaryForm, jumpForm]

end Sys2Proof.Machine

/-! ## The statements settled -/

namespace Sys2Proof.Proofs

open Sys2Proof Sys2Proof.Machine

/-- Settles O33, by the shape of the instruction: a fault before its last action has changed `st` alone, except that IN has
its input; a fault of its last action, the advance, leaves all the others done. -/
theorem faultsArePrecise : Obligations.FaultsArePrecise := by
  intro s t k v v' r hv h hv' hr
  obtain ⟨u, u', -, ⟨i, hdec, hexec, ht⟩ | ⟨f, -, rfl, hs, rfl⟩⟩ := stepVm_next h
  case inr =>
    obtain rfl : v = u := Option.some.inj (hv.symm.trans hs.get)
    obtain rfl : v' = v.raise v.instrWord f := Option.some.inj (hv'.symm.trans (State.setVm_get hs))
    exact .inl (congrArg (s.select k).setVm (Vm.raise_eq_of_faulted hr).2)
  obtain rfl : v = u := Option.some.inj (hv.symm.trans ht.stepping.get)
  have hs : (s.select k).Stepping v := ht.stepping
  have hrun := hs.running
  obtain rfl : v' = u' := Option.some.inj (hv'.symm.trans ht.own)
  obtain ⟨op, a, b, dst, hi⟩ | ⟨test, a, target, hi⟩ | ⟨dst, rfl⟩ | ⟨a, rfl⟩ | ⟨a, rfl⟩ | rfl := instr_shape_cases i
  · -- ADD, MUL, LT, EQ
    rw [exec_binary hi, onVm_eq hs] at hexec
    cases hexec
    obtain rfl := ht.eq_of_setVm rfl
    obtain he | ⟨x, y, d, ha, hb, hd, hip, hfault, he⟩ := binary_faulted hrun hr
    · exact .inl (congrArg (s.select k).setVm he)
    · refine .inr (.inr ⟨i, hdec, ?_, ?_, .inl ⟨op, a, b, dst, x, y, d, hi, ha, hb, hd,
        congrArg (s.select k).setVm he⟩⟩) <;> rw [width_of_binaryForm hi]
      · exact hip
      · exact hfault
  · -- JNZ, JZ
    rw [exec_jump hi, onVm_eq hs] at hexec
    cases hexec
    obtain rfl := ht.eq_of_setVm rfl
    exact .inl (congrArg (s.select k).setVm (jumpIf_faulted hrun hr))
  · -- IN
    obtain ⟨w, hw, ⟨x, p, hp, rfl⟩ | ⟨why, -, rfl⟩⟩ := execIn_next hexec <;>
      obtain rfl := hs.unique hw <;> obtain rfl := ht.eq_of_setVm rfl
    · obtain he | ⟨d, hd, hip, hfault, he⟩ := storeInput_faulted hrun hr
      · exact .inr (.inl ⟨dst, x, p, hdec, hp, congrArg (s.select k).setVm he⟩)
      · exact .inr (.inr ⟨_, hdec, hip, hfault, .inr (.inl ⟨dst, x, p, d, rfl, hp, hd,
          congrArg (s.select k).setVm he⟩)⟩)
    · exact .inl (congrArg (s.select k).setVm (Vm.raise_eq_of_faulted hr).2)
  · -- OUT
    obtain he | ⟨x, ha, hip, hfault, hsent⟩ := exec_out_faulted hs hexec hv' hr
    · exact .inl he
    · exact .inr (.inr ⟨_, hdec, hip, hfault, .inr (.inr (.inl ⟨a, x, rfl, ha, hsent⟩))⟩)
  · -- ARB
    rw [exec_arb a hs] at hexec
    cases hexec
    obtain rfl := ht.eq_of_setVm rfl
    obtain he | ⟨x, b, ha, hb, hip, hfault, he⟩ := adjustBase_faulted hrun hr
    · exact .inl (congrArg (s.select k).setVm he)
    · exact .inr (.inr ⟨_, hdec, hip, hfault, .inr (.inr (.inr ⟨a, x, b, rfl, ha, hb,
        congrArg (s.select k).setVm he⟩))⟩)
  · -- HLT
    rw [hltOnlyHalts _ v hs] at hexec
    cases hexec
    obtain rfl := ht.eq_of_setVm rfl
    cases hr

end Sys2Proof.Proofs

/-! PROOFS of the invocation statements (60_exceptions.md R206, R210 to R214): what a stand-alone run leaves, the result of a
network, and the permutation search. -/

namespace Sys2Proof.Machine

/-! ## A stand-alone run (R214) -/

/-- What a stand-alone VM keeps of its Memory and its port: `L`, the queue port, and of that the rest of its input and the
history so far. -/
structure Vm.Continues (v v' : Vm) : Prop where
  length : v'.mem.tape.length = v.mem.tape.length
  port : ∀ q : QueuePort, v.port = .queue q →
    ∃ q' : QueuePort, v'.port = .queue q' ∧ q'.inFifo <:+ q.inFifo ∧ q.history <+: q'.history

theorem Vm.Continues.of_same_port {v v' : Vm} (hlen : v'.mem.tape.length = v.mem.tape.length)
    (hport : v'.port = v.port) : v.Continues v' where
  length := hlen
  port := fun q hq => ⟨q, hport.trans hq, List.suffix_rfl, List.prefix_rfl⟩

theorem Vm.Continues.trans {v u w : Vm} (h : v.Continues u) (h' : u.Continues w) : v.Continues w where
  length := h'.length.trans h.length
  port := fun q hq => by
    obtain ⟨q1, hq1, hin, hout⟩ := h.port q hq
    obtain ⟨q2, hq2, hin', hout'⟩ := h'.port q1 hq1
    exact ⟨q2, hq2, hin'.trans hin, hout.trans hout'⟩

theorem Changes.length {i : Instr} {v v' : Vm} (h : Changes i v v') : v'.mem.tape.length = v.mem.tape.length := by
  obtain he | ⟨d, x, -, he⟩ := h.mem
  · rw [he]
  · rw [he, Memory.write_length]

/-- Taking an input from a queue port leaves a queue port without its front word. -/
theorem Port.takeInput_queue_value {q : QueuePort} {quiet : Bool} {x : Word} {p : Port}
    (h : (Port.queue q).takeInput quiet = .value x p) :
    ∃ rest : List Word, q.inFifo = x :: rest ∧ p = .queue { q with inFifo := rest } := by
  simp only [Port.takeInput] at h
  split at h
  · cases h
  · next hfront => cases h; exact ⟨_, hfront, rfl⟩

/-- An instruction takes from the front of a queue port (IN), adds to its history (OUT), or leaves it alone. -/
theorem exec_continues {i : Instr} {s t : State} {v v' : Vm} (ht : Touches (∃ a, i = .out a) (Changes i) s t v v')
    (h : exec i s = .next t) : v.Continues v' := by
  have hs := ht.stepping
  have hlen := ht.change.length
  obtain ⟨op, a, b, dst, hi⟩ | ⟨test, a, target, hi⟩ | ⟨dst, rfl⟩ | ⟨a, rfl⟩ | ⟨a, rfl⟩ | rfl := instr_shape_cases i
  · rw [exec_binary hi, onVm_eq hs] at h
    obtain ⟨-, hport, -⟩ := binary_frame op a b dst hs.running
    cases h
    exact .of_same_port hlen (ht.eq_of_setVm rfl ▸ hport)
  · rw [exec_jump hi, onVm_eq hs] at h
    obtain ⟨-, hport, -⟩ := jumpIf_frame test a target hs.running
    cases h
    exact .of_same_port hlen (ht.eq_of_setVm rfl ▸ hport)
  · obtain ⟨w, hw, ⟨x, p, hp, rfl⟩ | ⟨why, -, rfl⟩⟩ := execIn_next h <;>
      obtain rfl := hs.unique hw <;> obtain rfl := ht.eq_of_setVm rfl
    · refine ⟨hlen, fun q hq => ?_⟩
      obtain ⟨rest, hfront, rfl⟩ := Port.takeInput_queue_value (hq ▸ hp)
      exact ⟨_, storeInput_port _ _ _ _, hfront ▸ List.suffix_cons x rest, List.prefix_rfl⟩
    · exact .of_same_port hlen rfl
  · obtain ⟨w, hw, ⟨f, -, rfl⟩ | ⟨x, -, -, -, -, -, hown, -⟩⟩ := execOut_next h <;>
      obtain rfl := hs.unique hw
    · obtain rfl := ht.eq_of_setVm rfl
      exact .of_same_port hlen rfl
    · obtain rfl := Option.some.inj (ht.own.symm.trans hown)
      refine ⟨hlen, fun q hq => ⟨{ q with lastOut := some x, history := q.history ++ [x] }, ?_, List.suffix_rfl,
        List.prefix_append _ _⟩⟩
      rw [advance_port, hq]
      rfl
  · rw [exec_arb a hs] at h
    obtain ⟨-, hport, -⟩ := adjustBase_frame a hs.running
    cases h
    exact .of_same_port hlen (ht.eq_of_setVm rfl ▸ hport)
  · rw [Proofs.hltOnlyHalts _ v hs] at h
    cases h
    obtain rfl := ht.eq_of_setVm rfl
    exact .of_same_port hlen rfl

theorem stepVm_continues {k : Nat} {s t : State} {v : Vm} (hv : s.vms[k]? = some v) (h : stepVm k s = .next t) :
    ∃ v' : Vm, t.vms[k]? = some v' ∧ v.Continues v' := by
  obtain ⟨u, v', -, ⟨i, -, hexec, ht⟩ | ⟨f, -, rfl, hs, rfl⟩⟩ := stepVm_next h
  case inl =>
    obtain rfl : v = u := Option.some.inj (hv.symm.trans ht.stepping.get)
    exact ⟨v', ht.own, exec_continues ht hexec⟩
  case inr =>
    obtain rfl : v = u := Option.some.inj (hv.symm.trans hs.get)
    exact ⟨_, State.setVm_get hs, .of_same_port rfl rfl⟩

/-- A machine of one VM stays one, and its VM continues. -/
theorem NetStep.continues {s t : State} {v : Vm} (h : NetStep s t) (hv : s.vms = [v]) :
    ∃ v' : Vm, t.vms = [v'] ∧ v.Continues v' := by
  obtain ⟨k, -, hstep⟩ := h
  obtain ⟨_, _, ht⟩ := stepVm_touches hstep
  obtain ⟨v', hv'⟩ : ∃ v', t.vms = [v'] := List.length_eq_one_iff.1 (by simp [ht.length, hv])
  obtain ⟨u, hu, -⟩ := stepVm_stepping hstep
  obtain rfl : k = 0 := by simpa [hv] using (List.getElem?_eq_some_iff.1 hu).1
  obtain ⟨w, hw, hcontinues⟩ := stepVm_continues (v := v) (by simp [hv]) hstep
  obtain rfl : v' = w := by simpa [hv'] using hw
  exact ⟨v', hv', hcontinues⟩

theorem Reaches.continues {s t : State} {v : Vm} (h : Reaches s t) (hv : s.vms = [v]) :
    ∃ v' : Vm, t.vms = [v'] ∧ v.Continues v' := by
  induction h with
  | refl => exact ⟨v, hv, .of_same_port rfl rfl⟩
  | tail _ last ih =>
    obtain ⟨u, hu, hcontinues⟩ := ih
    obtain ⟨w, hw, hlast⟩ := last.continues hu
    exact ⟨w, hw, hcontinues.trans hlast⟩

/-! ## The result of a network (R206, R210 to R212) -/

theorem State.result_of_not_over {s : State} (h : s.over = false) : s.result = none := by
  simp [State.result, h]

theorem State.result_of_faulted {s : State} (h : s.over = true) (hf : s.faultRecords ≠ []) :
    s.result = some (.permutationEvaluationError s.faultRecords) := by
  obtain ⟨r, rest, hrecords⟩ := List.exists_cons_of_ne_nil hf
  rw [State.result, if_pos h, hrecords]

theorem State.faultRecords_of_endedWell {s : State} (h : s.endedWell) : s.faultRecords = [] := by
  refine List.eq_nil_iff_forall_not_mem.2 fun ⟨k, r⟩ hr => ?_
  obtain ⟨v, hv, hst⟩ := State.mem_faultRecords.1 hr
  cases (h v (List.mem_of_getElem? hv)).symm.trans hst

theorem State.over_of_endedWell {s : State} (h : s.endedWell) : s.over = true :=
  State.over_iff.2 fun v hv hrun => by cases (h v hv).symm.trans hrun

/-- At a good end the result is the last VM's last output. -/
theorem State.result_of_endedWell {s : State} (h : s.endedWell) {v : Vm} (hv : s.vms.getLast? = some v) :
    s.result = some (v.port.readOutput.elim .noOutput .value) := by
  rw [State.result, if_pos (State.over_of_endedWell h), State.faultRecords_of_endedWell h, hv]
  cases hout : v.port.readOutput <;> simp [hout]

/-! ## The permutation search (R213) -/

/-- `best` is the first of the greatest values of a list of runs. -/
def IsFirstMaximum (runs : List (List Word × Word)) (best : List Word × Word) : Prop :=
  ∃ before after : List (List Word × Word), runs = before ++ best :: after ∧
    (∀ pr ∈ before, pr.2.toInt < best.2.toInt) ∧ (∀ pr ∈ after, pr.2.toInt ≤ best.2.toInt)

theorem IsFirstMaximum.le {runs : List (List Word × Word)} {best pr : List Word × Word} (h : IsFirstMaximum runs best)
    (hpr : pr ∈ runs) : pr.2.toInt ≤ best.2.toInt := by
  obtain ⟨before, after, rfl, hbefore, hafter⟩ := h
  obtain hpr | hpr := List.mem_append.1 hpr
  · exact (hbefore pr hpr).le
  · obtain rfl | hpr := List.mem_cons.1 hpr
    · exact le_rfl
    · exact hafter pr hpr

/-- A smaller run in front of a list makes no difference. -/
theorem IsFirstMaximum.cons_of_lt {runs : List (List Word × Word)} {best pr : List Word × Word}
    (h : IsFirstMaximum runs best) (hlt : pr.2.toInt < best.2.toInt) : IsFirstMaximum (pr :: runs) best := by
  obtain ⟨before, after, rfl, hbefore, hafter⟩ := h
  exact ⟨pr :: before, after, rfl, List.forall_mem_cons.2 ⟨hlt, hbefore⟩, hafter⟩

/-- A run no greater than the one before it makes no difference. -/
theorem IsFirstMaximum.insert_second {runs : List (List Word × Word)} {best pr pr' : List Word × Word}
    (h : IsFirstMaximum (pr :: runs) best) (hle : pr'.2.toInt ≤ pr.2.toInt) :
    IsFirstMaximum (pr :: pr' :: runs) best := by
  obtain ⟨before, after, hruns, hbefore, hafter⟩ := h
  cases before with
  | nil =>
    obtain ⟨rfl, rfl⟩ := List.cons.inj hruns
    exact ⟨[], pr' :: runs, rfl, hbefore, List.forall_mem_cons.2 ⟨hle, hafter⟩⟩
  | cons first before =>
    obtain ⟨rfl, rfl⟩ := List.cons.inj hruns
    obtain ⟨hfirst, hrest⟩ := List.forall_mem_cons.1 hbefore
    exact ⟨pr :: pr' :: before, after, rfl,
      List.forall_mem_cons.2 ⟨hfirst, List.forall_mem_cons.2 ⟨hle.trans_lt hfirst, hrest⟩⟩, hafter⟩

/-- From a best run so far the search finds the first maximum of it and the runs to come. -/
theorem searchFrom_values (best : List Word × Word) (runs : List (List Word × Word)) :
    ∃ b : List Word × Word, searchFrom (some best) (runs.map fun pr => (pr.1, .value pr.2)) = .ok (some b) ∧
      IsFirstMaximum (best :: runs) b := by
  induction runs generalizing best with
  | nil => exact ⟨best, rfl, [], [], rfl, nofun, nofun⟩
  | cons run runs ih =>
    by_cases hlt : run.2.toInt > best.2.toInt
    case pos =>
      obtain ⟨b, hb, hmax⟩ := ih run
      refine ⟨b, by simpa [searchFrom, hlt] using hb, hmax.cons_of_lt ?_⟩
      exact lt_of_lt_of_le hlt (hmax.le List.mem_cons_self)
    case neg =>
      obtain ⟨b, hb, hmax⟩ := ih best
      exact ⟨b, by simpa [searchFrom, hlt] using hb, hmax.insert_second (not_lt.1 hlt)⟩

/-- On values alone the search answers the first maximum, whenever there are any. -/
theorem search_values {runs : List (List Word × Word)} (h : runs ≠ []) :
    ∃ best : List Word × Word, search (runs.map fun pr => (pr.1, .value pr.2)) = .ok (some best) ∧
      IsFirstMaximum runs best := by
  cases runs with
  | nil => exact absurd rfl h
  | cons run runs => exact searchFrom_values run runs

/-- The search stops at the first failure with its error, whatever is the best so far. -/
theorem searchFrom_failure {p : List Word} {e : EvalResult} {rest : List (List Word × EvalResult)}
    (he : ∀ x : Word, e ≠ .value x) (best : Option (List Word × Word)) (runs : List (List Word × Word)) :
    searchFrom best ((runs.map fun pr => (pr.1, .value pr.2)) ++ (p, e) :: rest) = .error e := by
  induction runs generalizing best with
  | nil =>
    cases e with
    | value x => exact absurd rfl (he x)
    | permutationEvaluationError records => rfl
    | noOutput => rfl
  | cons run runs ih =>
    cases best with
    | none => exact ih (some run)
    | some best =>
      simp only [List.map_cons, List.cons_append, searchFrom]
      split
      · exact ih (some run)
      · exact ih (some best)

/-- What a search over all permutations has evaluated: all of them, with values only, or the first ones up to a failure. -/
theorem Searches.cases {program phaseSet : List Word} {initial : Word} {feedback : Bool} {order : List (List Word)}
    {out : Except EvalResult (Option (List Word × Word))} (h : Searches program phaseSet initial feedback order out) :
    ∃ runs : List (List Word × Word),
      (∀ pr ∈ runs, Evaluates program pr.1 initial feedback (.value pr.2)) ∧
      ((∃ best, order = runs.map Prod.fst ∧ IsFirstMaximum runs best ∧ out = .ok (some best)) ∨
        ∃ (p : List Word) (e : EvalResult) (after : List (List Word)), order = runs.map Prod.fst ++ p :: after ∧
          Evaluates program p initial feedback e ∧ (∀ x : Word, e ≠ .value x) ∧ out = .error e) := by
  obtain ⟨⟨-, henum⟩, evaluations, heval, hprefix, hall, rfl⟩ := h
  obtain ⟨runs, rfl⟩ | ⟨runs, p, e, rest, he, rfl⟩ := evaluations_cases evaluations
  case inl =>
    refine ⟨runs, fun pr hpr => heval _ (List.mem_map_of_mem hpr), .inl ?_⟩
    rw [List.map_map, show Prod.fst ∘ (fun pr : List Word × Word => (pr.1, EvalResult.value pr.2)) = Prod.fst from rfl]
      at hprefix hall
    have hne : runs ≠ [] := by
      rintro rfl
      obtain rfl | ⟨e, he⟩ := hall
      · cases (henum phaseSet).2 (.refl _)
      · cases he
    obtain ⟨best, hbest, hmax⟩ := search_values hne
    obtain horder | ⟨e, he⟩ := hall
    · exact ⟨best, horder.symm, hmax, hbest⟩
    · cases hbest.symm.trans he
  case inr =>
    refine ⟨runs, fun pr hpr => heval _ (List.mem_append_left _ (List.mem_map_of_mem hpr)), .inr ?_⟩
    obtain ⟨after, hafter⟩ := hprefix
    refine ⟨p, e, rest.map Prod.fst ++ after, ?_, heval _ (List.mem_append_right _ List.mem_cons_self), he,
      searchFrom_failure he none runs⟩
    simp [← hafter, Function.comp_def]

end Sys2Proof.Machine

/-! ## The statements settled -/

namespace Sys2Proof.Proofs

open Sys2Proof Sys2Proof.Machine

/-- Settles O52: from the start to the end the one VM continues with its Memory and its queue port. -/
theorem runLeavesMemoryAndPort : Obligations.RunLeavesMemoryAndPort := by
  rintro mem q t ⟨hreaches, hover⟩
  obtain ⟨v, hv, hcontinues⟩ := hreaches.continues (v := Vm.start mem (.queue q)) rfl
  obtain ⟨q', hq', ⟨taken, htaken⟩, ⟨written, hwritten⟩⟩ := hcontinues.port q rfl
  have hst := State.over_iff.1 hover v (by simp [hv])
  exact ⟨v, q', taken, written, hv, hst, hq', hcontinues.length, htaken.symm, hwritten.symm⟩

/-- Settles O57: the join comes first, then the records of the `Faulted` VMs, then the last output. -/
theorem evaluateResultOrFailure : Obligations.EvaluateResultOrFailure := by
  intro s
  refine ⟨fun hrun => State.result_of_not_over (State.not_over_of_running hrun),
    fun hterminal ⟨v, r, hv, hst⟩ => ?faulted, fun hwell v hv => ?well⟩
  case faulted =>
    obtain ⟨k, hk⟩ := List.mem_iff_getElem?.1 hv
    have hmem : (k, r) ∈ s.faultRecords := State.mem_faultRecords.2 ⟨v, hk, hst⟩
    exact ⟨s.faultRecords, State.result_of_faulted (State.over_iff.2 hterminal) (List.ne_nil_of_mem hmem),
      fun _ _ => State.mem_faultRecords⟩
  case well =>
    rw [State.result_of_endedWell hwell hv]
    exact ⟨fun x hx => by rw [hx]; rfl, fun hnone => by rw [hnone]; rfl⟩

/-- Settles O58: the best so far is the first maximum of the runs seen, and a failure stops the search. -/
theorem searchKeepsTheFirstMaximum : Obligations.SearchKeepsTheFirstMaximum := by
  refine ⟨fun runs best h => ?maximum, fun runs hne => ?answers, fun runs p e rest he => searchFrom_failure he none runs⟩
  case maximum =>
    have hne : runs ≠ [] := by
      rintro rfl
      cases h
    obtain ⟨b, hb, hmax⟩ := search_values hne
    cases h.symm.trans hb
    exact hmax
  case answers =>
    obtain ⟨best, hbest, -⟩ := search_values hne
    exact ⟨best, hbest⟩

/-- Settles O59: a search that answers has evaluated every permutation, and its answer is their first maximum; one that
fails has evaluated those before the failure to values. -/
theorem searchMaximizesOverAllPermutations : Obligations.SearchMaximizesOverAllPermutations := by
  intro program phaseSet initial feedback order
  refine ⟨fun p m h => ?answer, fun e h => ?failure, fun h => ?nothing⟩
  case answer =>
    have ⟨⟨_, henum⟩, _⟩ := h
    obtain ⟨runs, heval, ⟨best, rfl, hmax, hout⟩ | ⟨_, _, _, -, -, -, hout⟩⟩ := h.cases <;> cases hout
    have hbest : (p, m) ∈ runs := by
      obtain ⟨before, after, rfl, -⟩ := hmax
      exact List.mem_append_right _ List.mem_cons_self
    refine ⟨(henum p).1 (List.mem_map_of_mem hbest), heval _ hbest, fun q hq => ?_, ?_⟩
    · obtain ⟨pr, hpr, rfl⟩ := List.mem_map.1 ((henum q).2 hq)
      exact ⟨pr.2, heval pr hpr, hmax.le hpr⟩
    · obtain ⟨before, after, rfl, hbefore, -⟩ := hmax
      refine ⟨before.map Prod.fst, after.map Prod.fst, by simp, fun q hq => ?_⟩
      obtain ⟨pr, hpr, rfl⟩ := List.mem_map.1 hq
      exact ⟨pr.2, heval pr (List.mem_append_left _ hpr), hbefore pr hpr⟩
  case failure =>
    obtain ⟨runs, heval, ⟨_, -, -, hout⟩ | ⟨p, e, after, horder, hfailed, he, hout⟩⟩ := h.cases <;> cases hout
    refine ⟨he, runs.map Prod.fst, after, p, horder, hfailed, fun q hq => ?_⟩
    obtain ⟨pr, hpr, rfl⟩ := List.mem_map.1 hq
    exact ⟨pr.2, heval pr hpr⟩
  case nothing =>
    obtain ⟨_, -, ⟨_, -, -, hout⟩ | ⟨_, _, _, -, -, -, hout⟩⟩ := h.cases <;> cases hout

end Sys2Proof.Proofs

/-! PROOFS of the reset statements (70_reset_and_hazards.md R230 to R235): what a fresh Memory holds, and the registers, ports and
topology with which a stand-alone run and a network start. -/

namespace Sys2Proof.Machine

/-! ## A fresh Memory (R232) -/

/-- A fresh Memory reads as its Program, padded with 0. -/
theorem Memory.ofProgram_read (program : List Word) (a : Nat) : (Memory.ofProgram program).read a = program.getD a 0 := by
  unfold Memory.read
  split
  · rfl
  · next ha => exact (List.getD_eq_default program 0 (Nat.le_of_not_lt ha)).symm

/-! ## The stand-alone boot is a stand-alone start (R234) -/

theorem State.boot_eq_standalone (program inputs : List Word) :
    State.boot program inputs =
      State.standalone (Memory.ofProgram program) { QueuePort.empty with inFifo := inputs } := by
  rw [State.boot, Port.addInputs_queue]
  rfl

theorem State.mem_standalone {mem : Memory} {q : QueuePort} {v : Vm} :
    v ∈ (State.standalone mem q).vms ↔ v = Vm.start mem (.queue q) := List.mem_singleton

/-! ## The VMs of a fresh network by their place (R235) -/

theorem State.exists_network (program : List Word) {phases : List Word} (initial : Word) (feedback : Bool)
    (h : phases ≠ []) : ∃ s : State, State.network program phases initial feedback = some s := by
  cases phases with
  | nil => exact absurd rfl h
  | cons _ _ => exact ⟨_, rfl⟩

/-- VM `k` of a fresh network is the one its place gives it, seeded with its phase and, at the head, the initial input. -/
theorem State.network_getElem? {program phases : List Word} {initial : Word} {feedback : Bool} {s : State} {k : Nat}
    {p : Word} (h : State.network program phases initial feedback = some s) (hp : phases[k]? = some p) :
    s.vms[k]? = some (Vm.start (Memory.ofProgram program) (.channel
      { ChannelPort.empty (downstreamOf phases.length feedback k) with
        inbox := if k = 0 then [p, initial] else [p] })) := by
  cases phases with
  | nil => cases h
  | cons phase phases =>
    cases h
    rw [List.getElem?_modify, List.getElem?_mapIdx, hp]
    cases k with
    | zero => rfl
    | succ k => rfl

/-- In a state of the invariant no VM is fed by two (R31). -/
theorem State.Inv.downstream_injective {s : State} (hs : s.Inv) {i j k : Nat} {v u : Vm} (hv : s.vms[i]? = some v)
    (hu : s.vms[j]? = some u) (hvk : v.port.downstream = some k) (huk : u.port.downstream = some k) : i = j :=
  Decidable.byContradiction fun hij => hs.downstream_ne hij hv hu k k hvk huk rfl

end Sys2Proof.Machine

/-! ## The statements settled -/

namespace Sys2Proof.Proofs

open Sys2Proof Sys2Proof.Machine

/-- Settles O50: each VM is read off its place, and the invariant a fresh network meets feeds no VM twice. -/
theorem networkBootState : Obligations.NetworkBootState := by
  refine ⟨fun _ _ _ => rfl, fun program phases initial feedback hne => ?_⟩
  obtain ⟨s, hs⟩ := State.exists_network program initial feedback hne
  obtain ⟨hfeedback, hlength, -, -⟩ := State.network_keeps hs
  exact ⟨s, hs, hlength, hfeedback, fun _ _ hp => State.network_getElem? hs hp,
    fun _ _ _ _ _ hv hu hvk huk => (State.network_inv hs).downstream_injective hv hu hvk huk⟩

/-- Settles O54: a stand-alone boot is a stand-alone start on a canonical Memory with a port that has no outputs yet. -/
theorem invariantAtBoot : Obligations.InvariantAtBoot := by
  refine ⟨fun program inputs => ?boot, fun _ _ hm hq => State.standalone_inv hm hq,
    fun _ _ _ _ _ h => State.network_inv h⟩
  case boot =>
    rw [State.boot_eq_standalone]
    exact State.standalone_inv (Memory.ofProgram_wf program) rfl

/-- Settles O5: a read is of the Program below its length and of the padding above it. -/
theorem freshMemoryHoldsTheProgram : Obligations.FreshMemoryHoldsTheProgram := by
  refine fun program => ⟨rfl, rfl, fun i x hx => ?below, fun a ha => ?above⟩
  case below => rw [Memory.ofProgram_read, List.getD_eq_getElem?_getD, hx, Option.getD_some]
  case above => rw [Memory.ofProgram_read, List.getD_eq_default program 0 ha]

/-- Settles O48: every VM of the four kinds of start is `Vm.start` of some Memory and some port. -/
theorem runsStartAtZeroRunning : Obligations.RunsStartAtZeroRunning := by
  have hstandalone : ∀ (mem : Memory) (q : QueuePort), ∀ v ∈ (State.standalone mem q).vms,
      v.ip = 0 ∧ v.rb = 0 ∧ v.st = .running := by
    intro mem q v hv
    obtain rfl := State.mem_standalone.1 hv
    exact ⟨rfl, rfl, rfl⟩
  refine ⟨hstandalone Memory.empty QueuePort.empty, hstandalone, fun program inputs => ?boot,
    fun program phases initial feedback s h v hv => ?network⟩
  case boot =>
    rw [State.boot_eq_standalone]
    exact hstandalone _ _
  case network =>
    obtain ⟨port, rfl⟩ := State.mem_network h hv
    exact ⟨rfl, rfl, rfl⟩

end Sys2Proof.Proofs
